-- ==== Sys2Proof/Word.lean ====
section
/-! DEFINITION. The bit-vector types of VAD: the widths `WW` = 32, `XW` = 32 and `AW` = 35 of rule R5 and the
67-bit request word of rule R50 (spec/00_scope.md, spec/30_encoding.md). -/

namespace Sys2Proof

/-- A byte of the buffer's byte view (R31). -/
abbrev Byte := BitVec 8

/-- A 32-bit word: a buffer word, an operand, or one result lane (R5: `WW` = `XW` = 32; R57). -/
abbrev Word := BitVec 32

/-- A word address as the BUF channel carries it (R5, R19: `AW` = 35). -/
abbrev WordAddr := BitVec 35

/-- A request word: `op` in bits 66:64, `base` in 63:32, `index` in 31:0 (R50). -/
abbrev Request := BitVec 67

end Sys2Proof
end

