-- ==== Sys2Proof/Syntax.lean ====
section
/-! DEFINITION. The five operations of VAD-5, one constructor per row of spec/opcode_table.json (R1, R3, R51).
A request's op code selects the constructor; `base` and `index` are its two 32-bit unsigned operands (R52, R53). -/

namespace Sys2Proof

/-- The closed set of decode operations (R3, R51). -/
inductive Instr where
  /-- `decode_vec2_f32 base, index` (R71). -/
  | decodeVec2F32 (base index : Word)
  /-- `decode_vec3_f32 base, index` (R72). -/
  | decodeVec3F32 (base index : Word)
  /-- `decode_vec4_f32 base, index` (R73). -/
  | decodeVec4F32 (base index : Word)
  /-- `decode_vec4_u16 base, index` (R80). -/
  | decodeVec4U16 (base index : Word)
  /-- `decode_vec4_u8_unorm base, index` (R85). -/
  | decodeVec4U8Unorm (base index : Word)
  deriving DecidableEq, Repr

end Sys2Proof
end

