-- ==== Sys2Proof/WellFormed.lean ====
section
/-! DEFINITION. Well-formedness of requests and instructions (R54, R55). The three fields are independent: every
word with `op <= 4` is well-formed, whatever its operands; a word with `op >= 5` is not a request of VAD-5. -/

namespace Sys2Proof

/-- R54: an instruction has no field combination to check; its operands are 32-bit values by their type. -/
def Instr.wellFormed : Instr → Bool
  | .decodeVec2F32 _ _ => true
  | .decodeVec3F32 _ _ => true
  | .decodeVec4F32 _ _ => true
  | .decodeVec4U16 _ _ => true
  | .decodeVec4U8Unorm _ _ => true

/-- R54, R55: a 67-bit word is a well-formed request when its op field (bits 66:64) is at most 4. -/
def wellFormedRequest (w : Request) : Bool :=
  decide ((w.extractLsb' 64 3).toNat ≤ 4)

end Sys2Proof
end

