-- ==== Sys2Proof/Decode.lean ====
section
/-! DEFINITION. The request decoder and encoder (R50 to R56, R66; spec/30_encoding.md). The decoder is total on
any 67-bit word and rejects a reserved op code by name; the encoder is written from the same table. -/

namespace Sys2Proof

/-- Why the decoder rejects a word: its op code is one of the reserved 5, 6, 7 (R55). -/
inductive Reject where
  | reservedOp (op : BitVec 3)
  deriving DecidableEq, Repr

/-- `op = r[66:64]` (R50, R66). -/
def requestOp (w : Request) : BitVec 3 := w.extractLsb' 64 3

/-- `base = r[63:32]` (R50, R66). -/
def requestBase (w : Request) : Word := w.extractLsb' 32 32

/-- `index = r[31:0]` (R50, R66). -/
def requestIndex (w : Request) : Word := w.extractLsb' 0 32

/-- The decode of a request word: op codes 0 to 4 select the rows of R51, 5 to 7 are reserved (R55, R56, R66). -/
def decode (w : Request) : Except Reject Instr :=
  match (requestOp w).toNat with
  | 0 => .ok (.decodeVec2F32 (requestBase w) (requestIndex w))
  | 1 => .ok (.decodeVec3F32 (requestBase w) (requestIndex w))
  | 2 => .ok (.decodeVec4F32 (requestBase w) (requestIndex w))
  | 3 => .ok (.decodeVec4U16 (requestBase w) (requestIndex w))
  | 4 => .ok (.decodeVec4U8Unorm (requestBase w) (requestIndex w))
  | _ => .error (.reservedOp (requestOp w))

/-- The op code of an operation (R51). -/
def Instr.opcode : Instr → BitVec 3
  | .decodeVec2F32 _ _ => 0
  | .decodeVec3F32 _ _ => 1
  | .decodeVec4F32 _ _ => 2
  | .decodeVec4U16 _ _ => 3
  | .decodeVec4U8Unorm _ _ => 4

/-- The `base` operand of an operation (R52). -/
def Instr.base : Instr → Word
  | .decodeVec2F32 b _ => b
  | .decodeVec3F32 b _ => b
  | .decodeVec4F32 b _ => b
  | .decodeVec4U16 b _ => b
  | .decodeVec4U8Unorm b _ => b

/-- The `index` operand of an operation (R53). -/
def Instr.index : Instr → Word
  | .decodeVec2F32 _ i => i
  | .decodeVec3F32 _ i => i
  | .decodeVec4F32 _ i => i
  | .decodeVec4U16 _ i => i
  | .decodeVec4U8Unorm _ i => i

/-- `REQ = {op, base, index}`, the first most significant (R50, R6). -/
def encode (i : Instr) : Request :=
  (i.opcode ++ i.base ++ i.index : BitVec (3 + 32 + 32))

/-- What the decoder reads from a table word: a request has exactly 67 bits (R50), so of the word's bits below
`nbits` those at 67 and above (the rounding up to whole bytes) belong to no request and are not looked at (log 13). -/
def decodeTableWord (nbits w : Nat) : Option Instr :=
  match decode (BitVec.ofNat 67 (w % 2 ^ nbits)) with
  | .ok i => some i
  | .error _ => none

end Sys2Proof
end

