-- ==== Sys2Proof/Config.lean ====
section
/-! DEFINITION. The implementation parameters of rule R5 that have one value on this hardware, and the values the
model names for the OPEN ones in its reset state. `BUF_WORDS` and `NUNITS` are OPEN: they are fields of State
(`buf.words`, the length of `units`) and every statement holds for any value of them. -/

namespace Sys2Proof

/-- `WW`: the width of a buffer word (R5). -/
def Config.wordBits : Nat := 32

/-- `XW`: the width of the operands `base` and `index` (R5, D2). -/
def Config.operandBits : Nat := 32

/-- `AW`: the width of a word address (R5, D3). -/
def Config.addressBits : Nat := 35

/-- The width of a request word (R50). -/
def Config.requestBits : Nat := 67

/-- `BUF_WORDS` of a machine whose producer has appended nothing (R24, R120). -/
def Config.resetBufWords : Nat := 0

/-- `NUNITS` of `State.reset`. DESIGN CHOICE: R5 leaves it OPEN (a number >= 1), see log 3. -/
def Config.resetUnits : Nat := 1

end Sys2Proof
end

