-- ==== Sys2Proof/Machine/State.lean ====
section
/-! DEFINITION. The state of VAD as plain data (R9.2, R17, R24, R30, R105). The block itself keeps nothing between
operations (R10 to R14); what the spec does name is the buffer, the channels of the units, and the model's own
bookkeeping of a run: the responses delivered and the fault record. -/

namespace Sys2Proof.Machine

/-- The faults of the model (60_exceptions.md section 2). They are recorded by `State.raise` (R105), after which the
machine goes on: no step ends the run with one. Safe: a recorded fault promises nothing of what the hardware did. -/
inductive Fault where
  /-- Code 1: a request with a reserved op code, raised by `rejectRequest` (R55, R104). Safe. -/
  | illegalOp (op : BitVec 3)
  /-- Code 2: the lowest word address of the operation that is `>= BUF_WORDS`, raised by `bufRead` in any of the
  five operations (R37, R102). Safe: the hardware's value is open (`OOR_BEHAVIOUR`). -/
  | bufOutOfRange (wa : WordAddr)
  deriving DecidableEq, Repr

/-- What the model declines to do. No step of the machine raises any of these; all but the first answer a move of
an outside party in Machine/Environment.lean. -/
inductive Refusal where
  /-- Raised by `exec` for an instruction that has no meaning yet (no arm does). Safe. -/
  | notModelled (mnemonic : String)
  /-- Raised by the producer's moves while a request is outstanding: not a run of the model (R125, U6). Unsafe if a
  real producer writes then (log 15). -/
  | bufferFrozen
  /-- Raised by `rewriteWord` and `rewriteByte` for an address outside the buffer: there is no such word (R30, R46).
  Safe. -/
  | noSuchWord
  /-- Raised by `issue` for a unit the machine does not have (R17). Safe. -/
  | noSuchUnit
  /-- Raised by `newRun` while a request is outstanding: the run has not ended (R129). Safe. -/
  | runNotEnded
  deriving DecidableEq, Repr

/-- A response: a typed vector, component 0 first, each component a 32-bit pattern (R20, R57). -/
inductive Response where
  /-- `VecF32(n; c0, ...)`: binary32 patterns, of op 0, 1, 2 and 4. -/
  | vecF32 (components : List Word)
  /-- `VecU32(4; c0, ...)`: unsigned integers in 32-bit lanes, of op 3. -/
  | vecU32 (components : List Word)
  deriving DecidableEq, Repr

/-- Memory as (byte address, byte) pairs in one canonical form: addresses strictly rising, no pair whose byte is 0,
which is what an unlisted address reads as (`Memory.wf` in Machine/Ops.lean; log 5). -/
abbrev Memory := List Host.Cell

/-- The raw vertex buffer `Buf` and its length `BUF_WORDS` (R30). Its byte view is R31's. -/
structure Buffer where
  bytes : Memory
  words : Nat
  deriving DecidableEq, Repr

/-- One decoder unit with its two channels (R15, R17). DESIGN CHOICE (log 23): both channels are unbounded lists and
neither exerts back-pressure, since the spec gives them no depth (91_not_in_source.md N8). -/
structure DecoderUnit where
  /-- REQ: the request words issued to this unit and not yet taken, oldest first (R16). -/
  req : List Request
  /-- The request taken and not yet answered; none in every idle unit (R17, R24). -/
  inProgress : Option Request
  /-- RSP: the responses delivered and not yet taken by the requester, oldest first (R20). -/
  rsp : List Response
  deriving DecidableEq, Repr

/-- One entry of the fault record: the request and the fault it raised (R105). -/
structure FaultEntry where
  request : Request
  fault : Fault
  deriving DecidableEq, Repr

/-- The whole machine: the buffer behind BUF, the units, and the bookkeeping of the current run. -/
structure State where
  /-- The one memory behind BUF (R30); no step changes it (R39, R40). -/
  buf : Buffer
  /-- The units; `NUNITS` is the length (R5, R17, R114). -/
  units : List DecoderUnit
  /-- The MODEL's own: the unit whose operation `exec` performs (log 2). -/
  active : Nat
  /-- The MODEL's own: the unit numbers of the coming steps, an input; any list is allowed (R23, U9, log 2). -/
  schedule : List Nat
  /-- The responses delivered in this run, each with its request, in the order of delivery (R9.2, R129). -/
  answered : List (Request × Response)
  /-- The sticky fault record of this run, in the order of recording (R105, log 9). -/
  faults : List FaultEntry
  deriving DecidableEq, Repr

/-- A unit after reset: no request in progress, no response pending, REQ and RSP empty (R24, R120). -/
def DecoderUnit.idle : DecoderUnit := { req := [], inProgress := none, rsp := [] }

/-- The machine right after reset with nothing appended by the producer: `BUF_WORDS` = 0, every unit idle, the fault
record empty (R24, R120). One unit stands for the OPEN `NUNITS` (log 3); `State.applyReset` resets any machine. -/
def State.reset : State where
  buf := { bytes := [], words := Config.resetBufWords }
  units := List.replicate Config.resetUnits DecoderUnit.idle
  active := 0
  schedule := []
  answered := []
  faults := []

end Sys2Proof.Machine
end

