-- ==== Sys2Proof/Machine/Ops.lean ====
section
/-! DEFINITION. The named operations over memory, the units and the run's bookkeeping: bytes and words of the
buffer (R30, R31), the one read primitive `bufRead` (R36, R37), taking a request from REQ (R17), delivering a
response on RSP (R20), and raising a fault (R105). Every meaning is written over these. -/

namespace Sys2Proof.Machine

/-! ### Bytes -/

/-- The byte at an address; an unlisted address reads as 0 (log 5: below `4 * BUF_WORDS` that is the byte's value,
above it no operation of the machine reads). -/
def Memory.read : Memory → Nat → Byte
  | [], _ => 0
  | (a, v) :: rest, x => if a = x then v else Memory.read rest x

/-- Writing a byte keeps the canonical form: the entry is placed in address order, and writing 0 removes it. -/
def Memory.write : Memory → Nat → Byte → Memory
  | [], x, v => if v = 0 then [] else [(x, v)]
  | (a, u) :: rest, x, v =>
    if x < a then (if v = 0 then (a, u) :: rest else (x, v) :: (a, u) :: rest)
    else if x = a then (if v = 0 then rest else (x, v) :: rest)
    else (a, u) :: Memory.write rest x v

/-- The canonical form: addresses strictly rising and no listed byte 0. -/
def Memory.wf : Memory → Bool
  | [] => true
  | (a, v) :: rest => decide (v ≠ 0) && rest.all (fun c => decide (a < c.1)) && Memory.wf rest

/-! ### The buffer -/

/-- The buffer's form: canonical bytes, none listed at or above byte address `4 * BUF_WORDS` (R30, R46). -/
def Buffer.wf (b : Buffer) : Bool :=
  b.bytes.wf && b.bytes.all (fun c => decide (c.1 < 4 * b.words))

/-- `Buf[wa]`: the word whose byte `k` (bits 8k+7 : 8k) stands at byte address `4*wa + k` (R31, D9). -/
def Buffer.word (b : Buffer) (wa : Nat) : Word :=
  (b.bytes.read (4 * wa + 3) ++ b.bytes.read (4 * wa + 2) ++ b.bytes.read (4 * wa + 1) ++ b.bytes.read (4 * wa) :
    BitVec (8 + 8 + 8 + 8))

/-- Byte offset `n` of the buffer: `Buf[n div 4][8*(n mod 4)+7 : 8*(n mod 4)]` (R31). -/
def Buffer.byteAt (b : Buffer) (n : Nat) : Byte :=
  (b.word (n / 4)).extractLsb' (8 * (n % 4)) 8

/-- Storing a word: byte `k` of the value goes to byte address `4*wa + k` (R31, R123: `MemWrite(4*wa, 4, v)`). Only
the producer stores; no operation of the block does (R39). -/
def Memory.writeWord (m : Memory) (wa : Nat) (v : Word) : Memory :=
  Memory.write (Memory.write (Memory.write (Memory.write m (4 * wa) (v.extractLsb' 0 8))
    (4 * wa + 1) (v.extractLsb' 8 8)) (4 * wa + 2) (v.extractLsb' 16 8)) (4 * wa + 3) (v.extractLsb' 24 8)

/-- `BufRead(wa)`: the buffer's word, or `raise BufOutOfRange(wa)` for `wa >= BUF_WORDS` (R36, R37). -/
def bufRead (b : Buffer) (wa : Nat) : Except Fault Word :=
  if wa < b.words then .ok (b.word wa) else .error (.bufOutOfRange (BitVec.ofNat 35 wa))

/-! ### Faults -/

/-- The code of a fault in the table of 60_exceptions.md section 2 (D22). -/
def Fault.code : Fault → Nat
  | .illegalOp _ => 1
  | .bufOutOfRange _ => 2

/-- The info recorded with a fault: the 3-bit op, or the lowest out-of-range word address (60_exceptions.md
section 2). -/
def Fault.info : Fault → Nat
  | .illegalOp op => op.toNat
  | .bufOutOfRange wa => wa.toNat

/-! ### Requests and responses -/

/-- The requests of a unit without a response or a record entry yet, the one it performs first (R17). -/
def DecoderUnit.outstanding (d : DecoderUnit) : List Request := d.inProgress.toList ++ d.req

/-- All outstanding requests of the machine (R9.2, R125, R129). -/
def State.outstanding (s : State) : List Request := s.units.flatMap DecoderUnit.outstanding

/-- The unit whose turn it is: the schedule's next entry or, where the schedule names none, the first unit with an
outstanding request (R17, R23, U9; log 2). -/
def State.turn (s : State) : Nat :=
  match s.schedule with
  | u :: _ => u
  | [] => s.units.findIdx (fun d => !d.outstanding.isEmpty)

/-- The unit whose turn it is takes its next request from REQ (R17). `none`: it has none and waits (R121). DESIGN CHOICE
(log 23): it takes the request whatever responses still wait untaken on its RSP. -/
def State.takeRequest (s : State) : Option (Request × State) :=
  match s.units[s.turn]? with
  | none => none
  | some d =>
    match d.outstanding with
    | [] => none
    | w :: rest =>
      some (w, { s with
        units := s.units.set s.turn { d with inProgress := some w, req := rest }
        active := s.turn
        schedule := s.schedule.tail })

/-- A step in which the unit whose turn it is has nothing to do: only the schedule moves on (R121; log 17). -/
def State.wait (s : State) : State := { s with schedule := s.schedule.tail }

/-- Delivering a response: it goes to the RSP of the unit that performed the request, which then holds nothing of it
(R17, R20, R22), and to the run's list of responses (R9.2). DESIGN CHOICE (log 23): RSP always has room, behind the
responses not yet taken. -/
def State.deliver (w : Request) (r : Response) (s : State) : State :=
  { s with
    units := s.units.modify s.active (fun d => { d with inProgress := none, rsp := d.rsp ++ [r] })
    answered := s.answered ++ [(w, r)] }

/-- Taking an exception: `raise`. No response is delivered, the request and its fault join the run's sticky fault
record, and every other unit and request is untouched (R105, R108). The block has no return from it (R109). -/
def State.raise (w : Request) (f : Fault) (s : State) : State :=
  { s with
    units := s.units.modify s.active (fun d => { d with inProgress := none })
    faults := s.faults ++ [{ request := w, fault := f }] }

/-- The end of an operation: its response is delivered, or its fault is raised (R18). -/
def State.finish (w : Request) (result : Except Fault Response) (s : State) :
    Host.Outcome State Fault Refusal :=
  match result with
  | .ok r => .next (s.deliver w r)
  | .error f => .next (s.raise w f)

/-- The fault of a word the decoder rejects: a reserved op code raises `IllegalOp(op)` (R55, R104). -/
def rejectFault : Reject → Fault
  | .reservedOp op => .illegalOp op

/-- A rejected request: no buffer read is made and no response delivered (R55, R104). -/
def rejectRequest (w : Request) (why : Reject) (s : State) : Host.Outcome State Fault Refusal :=
  s.finish w (.error (rejectFault why))

/-- The next request placed for the coming step: at the head of unit 0's REQ, unit 0 next in the schedule
(used by `State.withFetchWord`; log 1). -/
def State.placeRequest (w : Request) (s : State) : State :=
  match s.units with
  | [] => { s with units := [{ DecoderUnit.idle with req := [w] }], schedule := 0 :: s.schedule }
  | d :: rest =>
    { s with units := { d with inProgress := none, req := w :: d.outstanding } :: rest, schedule := 0 :: s.schedule }

end Sys2Proof.Machine
end

