-- ==== Sys2Proof/Machine/Operands.lean ====
section
/-! DEFINITION. Address generation (R33, R34), the field extractions of the format unpacker (R81, R86), and the bit
reinterpretation of the cast unit (R70). There is one operand form: `base` and `index` (R52, R53). -/

namespace Sys2Proof.Machine

/-- First word address `wa0 = (base div 4) + index * K`, exact (R33). -/
def firstWord (base index : Word) (k : Nat) : Nat := base.toNat / 4 + index.toNat * k

/-- `K(op)` = `NW(op)`: words per vertex, and words read (R5, R33, R51). -/
def strideOf : Instr → Nat
  | .decodeVec2F32 _ _ => 2
  | .decodeVec3F32 _ _ => 3
  | .decodeVec4F32 _ _ => 4
  | .decodeVec4U16 _ _ => 2
  | .decodeVec4U8Unorm _ _ => 1

/-- `wa0` of an operation (R33). -/
def firstWordOf (i : Instr) : Nat := firstWord i.base i.index (strideOf i)

/-- The word addresses of an operation: `wa0 + j` for `j = 0 .. NW(op)-1` (R34). -/
def wordsRead (i : Instr) : List Nat := (List.range (strideOf i)).map (fun j => firstWordOf i + j)

/-- `bitcast_f32(w)`: the binary32 value whose pattern is `w`, carried as that pattern (R59, R70). -/
def bitcastF32 (w : Word) : Word := w

/-- `lo16(w) = zext_32(w[15:0])` (R81). -/
def lo16 (w : Word) : Word := (w.extractLsb' 0 16).setWidth 32

/-- `hi16(w) = zext_32(w[31:16])` (R81). -/
def hi16 (w : Word) : Word := (w.extractLsb' 16 16).setWidth 32

/-- `byte(w, k) = w[8*k+7 : 8*k]` (R86). -/
def byteOf (w : Word) (k : Nat) : Byte := w.extractLsb' (8 * k) 8

end Sys2Proof.Machine
end

