-- ==== Sys2Proof/Machine/FloatDecode.lean ====
section
/-! DEFINITION. The floating-point decode family (spec/40_float_decode.md): `decode_vec2_f32`, `decode_vec3_f32`,
`decode_vec4_f32`. The pure function of each follows the rule's pseudocode line by line; the meaning performs it for
the active unit. -/

namespace Sys2Proof.Machine

/-- The pseudocode of R71. -/
def vec2F32 (b : Buffer) (base index : Word) : Except Fault Response := do
  let wa0 := firstWord base index 2
  let w0 ← bufRead b wa0
  let w1 ← bufRead b (wa0 + 1)
  return .vecF32 [bitcastF32 w0, bitcastF32 w1]

/-- The pseudocode of R72. -/
def vec3F32 (b : Buffer) (base index : Word) : Except Fault Response := do
  let wa0 := firstWord base index 3
  let w0 ← bufRead b wa0
  let w1 ← bufRead b (wa0 + 1)
  let w2 ← bufRead b (wa0 + 2)
  return .vecF32 [bitcastF32 w0, bitcastF32 w1, bitcastF32 w2]

/-- The pseudocode of R73. -/
def vec4F32 (b : Buffer) (base index : Word) : Except Fault Response := do
  let wa0 := firstWord base index 4
  let w0 ← bufRead b wa0
  let w1 ← bufRead b (wa0 + 1)
  let w2 ← bufRead b (wa0 + 2)
  let w3 ← bufRead b (wa0 + 3)
  return .vecF32 [bitcastF32 w0, bitcastF32 w1, bitcastF32 w2, bitcastF32 w3]

/-- `decode_vec2_f32 base, index` (R71). -/
def execDecodeVec2F32 (base index : Word) (s : State) : Host.Outcome State Fault Refusal :=
  s.finish (encode (.decodeVec2F32 base index)) (vec2F32 s.buf base index)

/-- `decode_vec3_f32 base, index` (R72). -/
def execDecodeVec3F32 (base index : Word) (s : State) : Host.Outcome State Fault Refusal :=
  s.finish (encode (.decodeVec3F32 base index)) (vec3F32 s.buf base index)

/-- `decode_vec4_f32 base, index` (R73). -/
def execDecodeVec4F32 (base index : Word) (s : State) : Host.Outcome State Fault Refusal :=
  s.finish (encode (.decodeVec4F32 base index)) (vec4F32 s.buf base index)

end Sys2Proof.Machine
end

