-- ==== Sys2Proof/Machine/PackedU16.lean ====
section
/-! DEFINITION. The packed 16-bit unsigned decode (spec/41_packed_u16_decode.md): `decode_vec4_u16`. -/

namespace Sys2Proof.Machine

/-- The pseudocode of R80: low halfword first within a word, lower word first (R81, R82). -/
def vec4U16 (b : Buffer) (base index : Word) : Except Fault Response := do
  let wa0 := firstWord base index 2
  let w0 ← bufRead b wa0
  let w1 ← bufRead b (wa0 + 1)
  return .vecU32 [lo16 w0, hi16 w0, lo16 w1, hi16 w1]

/-- `decode_vec4_u16 base, index` (R80). -/
def execDecodeVec4U16 (base index : Word) (s : State) : Host.Outcome State Fault Refusal :=
  s.finish (encode (.decodeVec4U16 base index)) (vec4U16 s.buf base index)

end Sys2Proof.Machine
end

