-- ==== Sys2Proof/Machine/Cast.lean ====
section
/-! DEFINITION. The integer to float cast of the 8-bit unsigned-normalized decode (R87): `UNORM(b)`, the binary32
pattern of b/255 rounded to nearest, by the exact integer algorithm the rule gives (D6, D7; log 10). -/

namespace Sys2Proof.Machine

/-- `-e` of R87: `e` is the largest integer with `255 * 2^e <= b`, and `e` lies in -8 .. 0, so this is the least
`n` in 0 .. 8 with `255 <= b * 2^n`. -/
def unormNegExp (b : Nat) : Nat :=
  ((List.range 9).find? (fun n => decide (255 ≤ b * 2 ^ n))).getD 8

/-- The scaled numerator `b * 2^(23-e)` of R87. -/
def unormScaled (b : Nat) : Nat := b * 2 ^ (23 + unormNegExp b)

/-- The rounded quotient `m` of R87: round to nearest; the remainder is never exactly half. -/
def unormMantissa (b : Nat) : Nat :=
  if 2 * (unormScaled b % 255) > 255 then unormScaled b / 255 + 1 else unormScaled b / 255

/-- `UNORM(b)` (R87): sign 0, exponent field `e + 127`, fraction `m - 2^23`; `UNORM(0)` is +0. -/
def unorm (b : Byte) : Word :=
  if b = 0 then 0
  else BitVec.ofNat 32 ((127 - unormNegExp b.toNat) * 2 ^ 23 + (unormMantissa b.toNat - 2 ^ 23))

end Sys2Proof.Machine
end

