-- ==== Sys2Proof/Machine/UnormDecode.lean ====
section
/-! DEFINITION. The 8-bit unsigned-normalized decode (spec/42_unorm_decode.md): `decode_vec4_u8_unorm`. -/

namespace Sys2Proof.Machine

/-- The pseudocode of R85: the four bytes of one word, low to high, each through `UNORM` (R86, R87). -/
def vec4U8Unorm (b : Buffer) (base index : Word) : Except Fault Response := do
  let wa0 := firstWord base index 1
  let w ← bufRead b wa0
  return .vecF32 [unorm (byteOf w 0), unorm (byteOf w 1), unorm (byteOf w 2), unorm (byteOf w 3)]

/-- `decode_vec4_u8_unorm base, index` (R85). -/
def execDecodeVec4U8Unorm (base index : Word) (s : State) : Host.Outcome State Fault Refusal :=
  s.finish (encode (.decodeVec4U8Unorm base index)) (vec4U8Unorm s.buf base index)

end Sys2Proof.Machine
end

