-- ==== Sys2Proof/Machine/Dispatch.lean ====
section
/-! DEFINITION. The dispatch of the operation step (R18): one arm per operation of VAD-5. -/

namespace Sys2Proof.Machine

def exec (i : Instr) (s : State) : Host.Outcome State Fault Refusal :=
  match i with
  | .decodeVec2F32 base index => Sys2Proof.Machine.execDecodeVec2F32 base index s
  | .decodeVec3F32 base index => Sys2Proof.Machine.execDecodeVec3F32 base index s
  | .decodeVec4F32 base index => Sys2Proof.Machine.execDecodeVec4F32 base index s
  | .decodeVec4U16 base index => Sys2Proof.Machine.execDecodeVec4U16 base index s
  | .decodeVec4U8Unorm base index => Sys2Proof.Machine.execDecodeVec4U8Unorm base index s

end Sys2Proof.Machine
end

