-- ==== Sys2Proof/Machine/Step.lean ====
section
/-! DEFINITION. One step of the machine (R17, R18): the unit whose turn it is takes its next request, performs it as
one atomic operation, and answers it or faults; with nothing to take it waits. -/

namespace Sys2Proof.Machine

/-- The operation step for a request taken by the active unit (R18): the decoded operation, or `IllegalOp`. -/
def performRequest (w : Request) (s : State) : Host.Outcome State Fault Refusal :=
  match decode w with
  | .ok i => exec i s
  | .error why => rejectRequest w why s

/-- One step: every step answers a next state (R128). -/
def step (s : State) : Host.Outcome State Fault Refusal :=
  match s.takeRequest with
  | none => .next s.wait
  | some (w, t) => performRequest w t

/-- The state in which the very next step takes and performs the request word `w` (log 1): requests are not fetched
from memory (R11, R44), they come on REQ, so the word is placed at the head of unit 0's REQ. Bits 67 and above belong
to no request (log 13). -/
def State.withFetchWord (s : State) (nbits w : Nat) : State :=
  s.placeRequest (BitVec.ofNat 67 (w % 2 ^ nbits))

end Sys2Proof.Machine
end

