-- ==== Sys2Proof/Machine/Bus.lean ====
section
/-! DEFINITION. The 128-bit RSP bus (R58) and the kind and length of results (R20, R57). The lanes at and beyond the
component count are no part of a result: nothing here gives them a value (D26, U4; log 14). -/

namespace Sys2Proof.Machine

/-- The components of a response, component 0 first (R57). -/
def Response.components : Response → List Word
  | .vecF32 cs => cs
  | .vecU32 cs => cs

/-- The response is a float vector (R57: `VecF32`), not an unsigned one. -/
def Response.isFloat : Response → Bool
  | .vecF32 _ => true
  | .vecU32 _ => false

/-- Components of an operation's result, a function of the op code alone (R20, R57). -/
def componentsOf : Instr → Nat
  | .decodeVec2F32 _ _ => 2
  | .decodeVec3F32 _ _ => 3
  | .decodeVec4F32 _ _ => 4
  | .decodeVec4U16 _ _ => 4
  | .decodeVec4U8Unorm _ _ => 4

/-- Kind of an operation's result, a function of the op code alone (R20, R57). -/
def resultIsFloat : Instr → Bool
  | .decodeVec2F32 _ _ => true
  | .decodeVec3F32 _ _ => true
  | .decodeVec4F32 _ _ => true
  | .decodeVec4U16 _ _ => false
  | .decodeVec4U8Unorm _ _ => true

/-- Lane `i` of the bus: `RSP[32*i+31 : 32*i]` (R58). -/
def busLane (bus : BitVec 128) (i : Nat) : Word := bus.extractLsb' (32 * i) 32

/-- A bus value carries a response: lane `i` holds component `i` for every `i < n`; the other lanes may hold any
value (R58). -/
def Response.carriedBy (r : Response) (bus : BitVec 128) : Prop :=
  ∀ i, i < r.components.length → busLane bus i = r.components.getD i 0

/-- The lane the block drives for component `i`, or the given spare value where the response has no component `i`. -/
def Response.lane (r : Response) (spare : Nat → Word) (i : Nat) : Word := r.components.getD i (spare i)

/-- The bus value of a response, for ANY values `spare` of the lanes beyond the component count (R58, D26). -/
def Response.bus (r : Response) (spare : Nat → Word) : BitVec 128 :=
  (r.lane spare 3 ++ r.lane spare 2 ++ r.lane spare 1 ++ r.lane spare 0 : BitVec (32 + 32 + 32 + 32))

end Sys2Proof.Machine
end

