-- ==== Sys2Proof/Machine/Assembler.lean ====
section
/-! DEFINITION. The listing form of requests and outcomes (R64; D16, log 20), on lists of characters. A line is
`<mnemonic> <base>, <index> ; comment`; numbers are decimal, or hexadecimal after `0x`, each below 2^32. There are no
pseudo-instructions and no aliases (R65). -/

namespace Sys2Proof.Machine

/-- The letters all five mnemonics begin with. -/
def decodeVecText : List Char := ['d', 'e', 'c', 'o', 'd', 'e', '_', 'v', 'e', 'c']

/-- The mnemonic of an operation (R51): `decode_vec2_f32`, `decode_vec3_f32`, `decode_vec4_f32`, `decode_vec4_u16`,
`decode_vec4_u8_unorm`. -/
def mnemonicOf : Instr → List Char
  | .decodeVec2F32 _ _ => decodeVecText ++ ['2', '_', 'f', '3', '2']
  | .decodeVec3F32 _ _ => decodeVecText ++ ['3', '_', 'f', '3', '2']
  | .decodeVec4F32 _ _ => decodeVecText ++ ['4', '_', 'f', '3', '2']
  | .decodeVec4U16 _ _ => decodeVecText ++ ['4', '_', 'u', '1', '6']
  | .decodeVec4U8Unorm _ _ => decodeVecText ++ ['4', '_', 'u', '8', '_', 'u', 'n', 'o', 'r', 'm']

/-- The operation a mnemonic names (R51, R64). -/
def operationNamed (name : List Char) (base index : Word) : Option Instr :=
  [Instr.decodeVec2F32 base index, .decodeVec3F32 base index, .decodeVec4F32 base index, .decodeVec4U16 base index,
    .decodeVec4U8Unorm base index].find? (fun i => decide (mnemonicOf i = name))

/-! ### Writing -/

/-- A hexadecimal digit. -/
def hexDigit (n : Nat) : Char :=
  ['0', '1', '2', '3', '4', '5', '6', '7', '8', '9', 'A', 'B', 'C', 'D', 'E', 'F'].getD n '0'

/-- A 32-bit pattern as `0x........` (R64), its letters in upper case (DESIGN CHOICE, log 20). -/
def patternText (w : Word) : List Char :=
  '0' :: 'x' :: [7, 6, 5, 4, 3, 2, 1, 0].map (fun k => hexDigit (w.toNat / 16 ^ k % 16))

/-- A request as a line (R64), its operands as `0x` with eight digits (DESIGN CHOICE, log 20). -/
def requestText (i : Instr) : List Char :=
  mnemonicOf i ++ ' ' :: patternText i.base ++ ',' :: ' ' :: patternText i.index

/-- Items with a comma and a space between them. -/
def commaSeparated : List (List Char) → List Char
  | [] => []
  | [x] => x
  | x :: y :: rest => x ++ ',' :: ' ' :: commaSeparated (y :: rest)

/-- A result after `->`: float components as patterns, unsigned ones as numbers (R64). DESIGN CHOICE (log 20): unsigned
components are written in decimal, where R64 says only "numbers" (95_test_vectors.md V3 shows both radices), and the
optional `= <decimal>` after a pattern is left away. -/
def responseText : Response → List Char
  | .vecF32 cs => ['-', '>', ' ', '('] ++ commaSeparated (cs.map patternText) ++ [')']
  | .vecU32 cs => ['-', '>', ' ', '('] ++ commaSeparated (cs.map (fun c => Nat.toDigits 10 c.toNat)) ++ [')']

/-- A faulted request, `-> fault <Name>(<info>)` (R64). DEDUCED (log 20): the info is written in decimal, as
every fault of 95_test_vectors.md is; R64 gives no radix. -/
def faultText : Fault → List Char
  | .illegalOp op =>
    ['-', '>', ' ', 'f', 'a', 'u', 'l', 't', ' ', 'I', 'l', 'l', 'e', 'g', 'a', 'l', 'O', 'p', '('] ++
      Nat.toDigits 10 op.toNat ++ [')']
  | .bufOutOfRange wa =>
    ['-', '>', ' ', 'f', 'a', 'u', 'l', 't', ' ', 'B', 'u', 'f', 'O', 'u', 't', 'O', 'f', 'R', 'a', 'n', 'g', 'e', '('] ++
      Nat.toDigits 10 wa.toNat ++ [')']

/-! ### Reading -/

/-- The value of a decimal or (radix 16) hexadecimal digit. -/
def digitValue (radix : Nat) (c : Char) : Option Nat :=
  let n :=
    if '0' ≤ c ∧ c ≤ '9' then c.toNat - '0'.toNat
    else if 'A' ≤ c ∧ c ≤ 'F' then c.toNat - 'A'.toNat + 10
    else if 'a' ≤ c ∧ c ≤ 'f' then c.toNat - 'a'.toNat + 10
    else radix
  if n < radix then some n else none

/-- The number a digit string denotes, continuing from `acc`. -/
def digitsValue (radix : Nat) : Nat → List Char → Option Nat
  | acc, [] => some acc
  | acc, c :: cs =>
    match digitValue radix c with
    | some d => digitsValue radix (acc * radix + d) cs
    | none => none

/-- An unsigned number: decimal, or hexadecimal with `0x` (R64). -/
def parseNumber : List Char → Option Nat
  | [] => none
  | '0' :: 'x' :: d :: ds => digitsValue 16 0 (d :: ds)
  | c :: cs => digitsValue 10 0 (c :: cs)

/-- An operand: a number below 2^32 (R64). -/
def parseOperand (cs : List Char) : Option Word :=
  match parseNumber cs with
  | some n => if n < 2 ^ 32 then some (BitVec.ofNat 32 n) else none
  | none => none

/-- A text without the blanks at its two ends. -/
def trimBlanks (cs : List Char) : List Char :=
  ((cs.dropWhile (· == ' ')).reverse.dropWhile (· == ' ')).reverse

/-- A line of a listing: `<mnemonic> <base>, <index>`, a comment after `;` (R64). -/
def parseRequest (text : List Char) : Option Instr :=
  let line := trimBlanks (text.takeWhile (· != ';'))
  let name := line.takeWhile (· != ' ')
  let operands := line.dropWhile (· != ' ')
  match operands.dropWhile (· != ',') with
  | [] => none
  | _ :: indexText =>
    match parseOperand (trimBlanks (operands.takeWhile (· != ','))), parseOperand (trimBlanks indexText) with
    | some base, some index => operationNamed name base index
    | _, _ => none

end Sys2Proof.Machine
end

