-- ==== Sys2Proof/Machine/Environment.lean ====
section
/-! DEFINITION. What the outside parties may do to the machine (R120, R122 to R125, R129 to R131): reset, the
producer's moves, the requester's moves, and the start of a run. None of these is a step of the machine. A producer's
move while a request is outstanding is no move of the model and is refused (R125, U6; log 15). -/

namespace Sys2Proof.Machine

/-! ### Reset -/

/-- Reset of a machine in any state: every unit idle, the channels empty, the fault record empty; the buffer,
`BUF_WORDS` and `NUNITS` unchanged (R24, R120). The model's own `active` and `schedule` take their reset values. -/
def State.applyReset (s : State) : State :=
  { s with
    units := s.units.map (fun _ => DecoderUnit.idle)
    active := 0
    schedule := []
    answered := []
    faults := [] }

/-! ### The producer -/

/-- Appending a word: `Buf[BUF_WORDS] = v`, and `BUF_WORDS` grows by one (R30, R123). -/
def Buffer.append (b : Buffer) (v : Word) : Buffer :=
  { bytes := b.bytes.writeWord b.words v, words := b.words + 1 }

/-- The buffer a producer makes by appending these words in ascending order to nothing (R123). -/
def Buffer.ofWords (ws : List Word) : Buffer := ws.foldl Buffer.append { bytes := [], words := 0 }

/-- The producer appends a word (R123, R125). DESIGN CHOICE (log 15, log 21): a producer's write does not begin a new
run's books: `answered` and `faults` stay, and only `State.newRun`, a reset or a launch empties them. -/
def State.appendWord (v : Word) (s : State) : Host.Outcome State Fault Refusal :=
  if s.outstanding = [] then .next { s with buf := s.buf.append v } else .refused .bufferFrozen

/-- The producer rewrites a word of the buffer between runs (R125). DESIGN CHOICE (log 15, log 21): `answered` and
`faults` stay, as for `State.appendWord`. -/
def State.rewriteWord (wa : Nat) (v : Word) (s : State) : Host.Outcome State Fault Refusal :=
  if s.outstanding ≠ [] then .refused .bufferFrozen
  else if wa < s.buf.words then .next { s with buf := { s.buf with bytes := s.buf.bytes.writeWord wa v } }
  else .refused .noSuchWord

/-- A producer that writes bytes places byte offset `n` as R31 says (R123, R125). DESIGN CHOICE (log 15, log 21):
`answered` and `faults` stay, as for `State.appendWord`. -/
def State.rewriteByte (n : Nat) (v : Byte) (s : State) : Host.Outcome State Fault Refusal :=
  if s.outstanding ≠ [] then .refused .bufferFrozen
  else if n < 4 * s.buf.words then .next { s with buf := { s.buf with bytes := s.buf.bytes.write n v } }
  else .refused .noSuchWord

/-! ### The requester -/

/-- The requester issues a request word on the REQ of unit `u`, at any time (R131). DESIGN CHOICE (log 23): REQ always
has room. -/
def State.issue (u : Nat) (w : Request) (s : State) : Host.Outcome State Fault Refusal :=
  if u < s.units.length then
    .next { s with units := s.units.modify u (fun d => { d with req := d.req ++ [w] }) }
  else .refused .noSuchUnit

/-- The requester takes the oldest response from the RSP of unit `u`; `none` where there is none (R17, R131).
DESIGN CHOICE (log 23): it may leave responses there as long as it likes, and no unit waits for it. -/
def State.takeResponse (u : Nat) (s : State) : Option (Response × State) :=
  match s.units[u]? with
  | none => none
  | some d =>
    match d.rsp with
    | [] => none
    | r :: rest => some (r, { s with units := s.units.set u { d with rsp := rest } })

/-! ### Runs -/

/-- The launch state of a run (R129, R130): a buffer, the requests assigned to each unit in order, and the schedule;
units idle, nothing delivered, the fault record empty. -/
def State.launch (b : Buffer) (queues : List (List Request)) (schedule : List Nat) : State where
  buf := b
  units := queues.map (fun q => { DecoderUnit.idle with req := q })
  active := 0
  schedule := schedule
  answered := []
  faults := []

/-- The next run of a machine whose last run has ended: the bookkeeping of a run starts empty (R105, R129, R130). It is
this move, not a producer's write, that ends the old run's books (DESIGN CHOICE, log 21). -/
def State.newRun (s : State) : Host.Outcome State Fault Refusal :=
  if s.outstanding = [] then .next { s with answered := [], faults := [], schedule := [] }
  else .refused .runNotEnded

end Sys2Proof.Machine
end

