-- ==== Sys2Proof/Machine/Determinism.lean ====
section
/-! DEFINITION. The determinism test of R132: one set of requests, run to its end under two schedules, and the
comparison of the responses bit for bit. Program P3 of 95_test_vectors.md goes through it in Tests/Slice0.lean. -/

namespace Sys2Proof.Machine

/-- The run from a launch state to its end (R128, R129): as many steps as the schedule names and requests are
outstanding, which the statement EveryRunEnds says is enough. -/
def State.runToEnd (s : State) : Host.Outcome State Fault Refusal :=
  Host.Core.run Sys2Proof.core (s.schedule.length + s.outstanding.length) s

/-- R132's first schedule: all requests on one unit, in issue order. -/
def State.allOnOneUnit (b : Buffer) (requests : List Request) : State := State.launch b [requests] []

/-- The comparison of R132 between the ends of two runs: both have ended, with the same response, bit for bit, to each
request, and the same fault record. Order carries no meaning (R129, R106; log 9), so it is compared up to order. -/
def sameResponses (s t : State) : Bool :=
  s.outstanding.isEmpty && t.outstanding.isEmpty && s.answered.isPerm t.answered && s.faults.isPerm t.faults

/-- A repeated request got bit-identical responses (R132, R109). -/
def repeatsAgree (s : State) : Bool :=
  s.answered.all (fun p => s.answered.all (fun q => decide (p.1 = q.1 → p.2 = q.2)))

/-- The test of R132: the requests all on one unit in issue order, against the same requests spread over units in the
order and interleaving `queues` and `schedule` give (log 2). -/
def determinismTest (b : Buffer) (requests : List Request) (queues : List (List Request))
    (schedule : List Nat) : Bool :=
  match (State.allOnOneUnit b requests).runToEnd, (State.launch b queues schedule).runToEnd with
  | .next s, .next t => sameResponses s t && repeatsAgree s && repeatsAgree t
  | _, _ => false

end Sys2Proof.Machine
end

