-- ==== Sys2Proof/Machine/Flags.lean ====
section
/-! DEFINITION. VAD has no flags, condition codes or floating-point exception flags (R12, D31): no operation sets or
reads one, so State holds none. The one condition a floating-point unit elsewhere would flag is named here, for
statements about it; nothing records it. -/

namespace Sys2Proof.Machine

/-- The conversion of byte `b` is inexact: 255 does not divide the scaled numerator (R12, R89(b)). -/
def unormInexact (b : Byte) : Bool := decide (unormScaled b.toNat % 255 ≠ 0)

end Sys2Proof.Machine
end

