-- ==== Sys2Proof/Machine/Float32.lean ====
section
/-! DEFINITION. The IEEE-754 binary32 reading of a float lane (R59, R70; G1 of 93_implementation_defined.md): sign
bit 31, exponent bits 30:23, fraction bits 22:0. PRESUMED by the spec from general knowledge (log 11). No operation
looks at these fields; statements about the values of `UNORM` (R87, R89) do. -/

namespace Sys2Proof.Machine

/-- The sign bit (bit 31). -/
def f32Negative (p : Word) : Bool := p.getLsbD 31

/-- The exponent field (bits 30:23). -/
def f32Exponent (p : Word) : Nat := (p.extractLsb' 23 8).toNat

/-- The fraction field (bits 22:0). -/
def f32Fraction (p : Word) : Nat := (p.extractLsb' 0 23).toNat

/-- The classes of binary32 patterns (G1). -/
inductive F32Class where
  | zero | subnormal | normal | infinity | quietNaN | signallingNaN
  deriving DecidableEq, Repr

/-- The class of a pattern: exponent 255 is an infinity or a NaN (quiet if fraction bit 22 is set), exponent 0 a zero
or a subnormal (G1). -/
def f32Class (p : Word) : F32Class :=
  if f32Exponent p = 255 then
    if f32Fraction p = 0 then .infinity
    else if p.getLsbD 22 then .quietNaN else .signallingNaN
  else if f32Exponent p = 0 then
    if f32Fraction p = 0 then .zero else .subnormal
  else .normal

/-- The pattern is a finite number. -/
def f32Finite (p : Word) : Bool := decide (f32Exponent p ≠ 255)

/-- The magnitude of a finite pattern in units of 2^-149, the smallest subnormal: exact integers (G1: bias 127). -/
def f32Magnitude (p : Word) : Nat :=
  if f32Exponent p = 0 then f32Fraction p else (2 ^ 23 + f32Fraction p) * 2 ^ (f32Exponent p - 1)

/-- The value of a finite pattern in units of 2^-149. -/
def f32Units (p : Word) : Int :=
  if f32Negative p then -(f32Magnitude p : Int) else (f32Magnitude p : Int)

/-- 1.0 in units of 2^-149. -/
def f32One : Int := 2 ^ 149

end Sys2Proof.Machine
end

