-- ==== Sys2Proof/Machine/Records.lean ====
section
/-! DEFINITION. The two plain data records of the requester (R61 to R63) and its use of the block for triangle
assembly (R63, R65; program P2 of 95_test_vectors.md). No operation of the block reads or writes either; they are
values, not state. Their widths are D27's (log 19). -/

namespace Sys2Proof.Machine

/-- `Indices`: a pair `(object, vertex)`, 32 bits each (R62). How `object` selects a base offset is not modelled
(N12, D32). -/
structure Indices where
  object : Word
  vertex : Word
  deriving DecidableEq, Repr

/-- `Triangle`: three positions, each three binary32 patterns, and the three original indices (R63). -/
structure Triangle where
  vertices : Vector (Vector Word 3) 3
  indices : Vector Word 3
  deriving DecidableEq, Repr

/-- The three ordinary requests of one triangle, one `decode_vec3_f32` a corner (R63, R65). A corner is the base offset
the requester passes for it and its `Indices`. DESIGN CHOICE (log 19): each corner has a base of its own, free of its
`object` and of the other corners' bases, since R62, N12 and D32 leave open how `object` gives a base; the corners of
one triangle may or may not share one. -/
def triangleRequests (corners : Vector (Word × Indices) 3) : List Instr :=
  corners.toList.map (fun (base, c) => .decodeVec3F32 base c.vertex)

/-- The position a response carries, if it is a 3-component float vector (R57, R63). -/
def positionOf : Response → Option (Vector Word 3)
  | .vecF32 [x, y, z] => some #v[x, y, z]
  | _ => none

/-- Packing three responses and the three original indices into a `Triangle` (R63). -/
def packTriangle (r0 r1 r2 : Response) (indices : Vector Word 3) : Option Triangle :=
  match positionOf r0, positionOf r1, positionOf r2 with
  | some p0, some p1, some p2 => some { vertices := #v[p0, p1, p2], indices := indices }
  | _, _, _ => none

end Sys2Proof.Machine
end

