-- ==== Sys2Proof/Safety.lean ====
section
/-! DEFINITION. The terms claims about requests and runs are stated in: the outcome of a request as a function of the
buffer alone (R18, R21), the requester's duties (R124), misalignment (R103), the launch premises (R130), the end of
a run (R129), and the invariant of the machine. -/

namespace Sys2Proof

open Sys2Proof.Machine

/-- The result of an operation as a function of the buffer and the operands alone (R18, R21). -/
def resultOf (b : Buffer) : Instr → Except Fault Response
  | .decodeVec2F32 base index => vec2F32 b base index
  | .decodeVec3F32 base index => vec3F32 b base index
  | .decodeVec4F32 base index => vec4F32 b base index
  | .decodeVec4U16 base index => vec4U16 b base index
  | .decodeVec4U8Unorm base index => vec4U8Unorm b base index

/-- The outcome of a request word: a response, `BufOutOfRange`, or `IllegalOp` (R18). -/
def outcomeOf (b : Buffer) (w : Request) : Except Fault Response :=
  match decode w with
  | .ok i => resultOf b i
  | .error why => .error (rejectFault why)

/-- `Misaligned(req)`: not a fault (R103). -/
def Misaligned (i : Instr) : Prop := i.base.toNat % 4 ≠ 0

/-- All words of the operation are inside the buffer, (c) of R124. -/
def InRange (b : Buffer) (i : Instr) : Prop := i.base.toNat / 4 + i.index.toNat * strideOf i + strideOf i ≤ b.words

/-- A request that meets (a), (b) and (c) of R124: a legal op code, an aligned base, all its words in the buffer. -/
def ValidRequest (b : Buffer) (w : Request) : Prop :=
  ∃ i, decode w = .ok i ∧ ¬ Misaligned i ∧ InRange b i

/-- `BufferComplete`: the buffer holds exactly the words the claim names (R130, R123). -/
def BufferComplete (words : List Word) (s : State) : Prop :=
  s.buf.words = words.length ∧ ∀ wa, (h : wa < words.length) → s.buf.word wa = words[wa]

/-- `BufferFrozen`, between two states of a run: the buffer is the same (R125, R130). -/
def BufferFrozen (s t : State) : Prop := t.buf = s.buf

/-- `NoFaultRecorded` (R130). -/
def NoFaultRecorded (s : State) : Prop := s.faults = []

/-- `UnitsIdle`: no request in progress, no response pending in any unit (R24, R120, R130). -/
def UnitsIdle (s : State) : Prop := ∀ d ∈ s.units, d.inProgress = none ∧ d.rsp = []

/-- `RequestsValid`: every outstanding request meets (a), (b), (c) of R124 (R130). -/
def RequestsValid (s : State) : Prop := ∀ w ∈ s.outstanding, ValidRequest s.buf w

/-- `k` steps from `s` lead to `t`. -/
def Runs (k : Nat) (s t : State) : Prop := Host.Core.run Sys2Proof.core k s = .next t

/-- The run has ended: every request has its response or its entry in the fault record (R129). -/
def Ended (s : State) : Prop := s.outstanding = []

/-- It ended successfully: the fault record is empty (R129). -/
def EndedSuccessfully (s : State) : Prop := Ended s ∧ NoFaultRecorded s

/-- The invariant of the machine: the buffer is in its canonical form, there is a unit, no unit is between taking a
request and answering it (R18), and every response and fault of the run is what the request's outcome on this buffer
says (R21, R105). -/
structure Inv (s : State) : Prop where
  bufferWf : s.buf.wf = true
  hasUnit : s.units ≠ []
  noneInProgress : ∀ d ∈ s.units, d.inProgress = none
  answersRight : ∀ p ∈ s.answered, outcomeOf s.buf p.1 = .ok p.2
  faultsRight : ∀ e ∈ s.faults, outcomeOf s.buf e.request = .error e.fault

end Sys2Proof
end

