-- ==== Sys2Proof/Certificates/Slice0/Obligations.lean ====
section
/-! DEFINITION. The statements for the provers, in the order of the spec's files: encoding, addresses, memory, the
five operations, the unorm cast, faults, the step, whole runs, the host's moves. -/

open Sys2Proof Sys2Proof.Machine

/-! ### Encoding (30_encoding.md) -/

/-- R50, R51, R66: the decoder undoes the encoder, for every operation and every operand value. -/
def Obligations.EncodedInstructionDecodesToItself : Prop :=
  ∀ i : Instr, i.wellFormed = true → decode (encode i) = .ok i

/-- R56: every 67-bit word is decoded; `op <= 4` selects a row with the word's operands, `op >= 5` is reserved, and no
value of the operands makes a word undecodable. -/
def Obligations.EveryWordDecodesByItsOpFieldAlone : Prop :=
  ∀ w : Request,
    ((∃ i, decode w = .ok i) ↔ (w.extractLsb' 64 3).toNat ≤ 4) ∧
    (∀ i, decode w = .ok i →
      i.opcode = w.extractLsb' 64 3 ∧ i.base = w.extractLsb' 32 32 ∧ i.index = w.extractLsb' 0 32) ∧
    (5 ≤ (w.extractLsb' 64 3).toNat → decode w = .error (.reservedOp (w.extractLsb' 64 3)))

/-- R50: `REQ = {op, base, index} = op * 2^64 + base * 2^32 + index`, with the op codes of R51. -/
def Obligations.RequestWordIsOpBaseIndex : Prop :=
  ∀ b x : Word,
    (encode (.decodeVec2F32 b x)).toNat = 0 * 2 ^ 64 + b.toNat * 2 ^ 32 + x.toNat ∧
    (encode (.decodeVec3F32 b x)).toNat = 1 * 2 ^ 64 + b.toNat * 2 ^ 32 + x.toNat ∧
    (encode (.decodeVec4F32 b x)).toNat = 2 * 2 ^ 64 + b.toNat * 2 ^ 32 + x.toNat ∧
    (encode (.decodeVec4U16 b x)).toNat = 3 * 2 ^ 64 + b.toNat * 2 ^ 32 + x.toNat ∧
    (encode (.decodeVec4U8Unorm b x)).toNat = 4 * 2 ^ 64 + b.toNat * 2 ^ 32 + x.toNat

/-- The encoding examples of 30_encoding.md section 7, read by the decoder. -/
def Obligations.SpecEncodingExamplesDecode : Prop :=
  decode 0x00000000000000001#67 = .ok (.decodeVec2F32 0 1) ∧
  decode 0x10000000C00000005#67 = .ok (.decodeVec3F32 12 5) ∧
  decode 0x20000004000000001#67 = .ok (.decodeVec4F32 64 1) ∧
  decode 0x30000002000000001#67 = .ok (.decodeVec4U16 32 1) ∧
  decode 0x40000003000000001#67 = .ok (.decodeVec4U8Unorm 48 1) ∧
  decode 0x50000000000000000#67 = .error (.reservedOp 5) ∧
  decode 0x7FFFFFFFFFFFFFFFF#67 = .error (.reservedOp 7)

/-- R57: kind, number and range of the components are functions of the op code alone. The range clause of op 4 reads
the patterns as binary32 values (R59), and that layout is presumed (G1, log 11). -/
def Obligations.ResultKindAndCountFollowTheOpCode : Prop :=
  ∀ (buf : Buffer) (b x : Word) (r : Response),
    (resultOf buf (.decodeVec2F32 b x) = .ok r → ∃ c0 c1, r = .vecF32 [c0, c1]) ∧
    (resultOf buf (.decodeVec3F32 b x) = .ok r → ∃ c0 c1 c2, r = .vecF32 [c0, c1, c2]) ∧
    (resultOf buf (.decodeVec4F32 b x) = .ok r → ∃ c0 c1 c2 c3, r = .vecF32 [c0, c1, c2, c3]) ∧
    (resultOf buf (.decodeVec4U16 b x) = .ok r →
      ∃ c0 c1 c2 c3, r = .vecU32 [c0, c1, c2, c3] ∧ ∀ c ∈ [c0, c1, c2, c3], c.toNat ≤ 0xFFFF) ∧
    (resultOf buf (.decodeVec4U8Unorm b x) = .ok r →
      ∃ c0 c1 c2 c3, r = .vecF32 [c0, c1, c2, c3] ∧
        ∀ c ∈ [c0, c1, c2, c3], f32Finite c = true ∧ 0 ≤ f32Units c ∧ f32Units c ≤ f32One)

/-- R58: component `k` stands in bits `32*k+31 : 32*k` of the RSP bus whatever the lanes beyond the component count
hold; those lanes hold any value. -/
def Obligations.BusCarriesTheComponentsWhateverTheSpareLanes : Prop :=
  ∀ (buf : Buffer) (i : Instr) (r : Response) (spare : Nat → Word), resultOf buf i = .ok r →
    r.components.length = componentsOf i ∧ r.carriedBy (r.bus spare) ∧
    ∀ k, componentsOf i ≤ k → k < 4 → busLane (r.bus spare) k = spare k

/-- R64 (the written form is the model's choice, log 20): a request written as a listing line reads back as itself. -/
def Obligations.WrittenRequestReadsBack : Prop :=
  ∀ i : Instr, parseRequest (requestText i) = some i

/-! ### Address generation and memory (20_memory.md) -/

/-- R33: the first word address is `(base div 4) + index * K(op)` exactly, nothing wraps. -/
def Obligations.FirstWordAddressIsExact : Prop :=
  ∀ b x : Word,
    firstWordOf (.decodeVec2F32 b x) = b.toNat / 4 + x.toNat * 2 ∧
    firstWordOf (.decodeVec3F32 b x) = b.toNat / 4 + x.toNat * 3 ∧
    firstWordOf (.decodeVec4F32 b x) = b.toNat / 4 + x.toNat * 4 ∧
    firstWordOf (.decodeVec4U16 b x) = b.toNat / 4 + x.toNat * 2 ∧
    firstWordOf (.decodeVec4U8Unorm b x) = b.toNat / 4 + x.toNat ∧
    (b.extractLsb' 2 30).toNat = b.toNat / 4 ∧
    ∀ i : Instr, firstWordOf i ≤ 2 ^ 34 + 2 ^ 30 - 5

/-- R34: the word addresses of each operation, and the largest one any request can form. -/
def Obligations.OperationsReadConsecutiveWords : Prop :=
  (∀ b x : Word, let a := b.toNat / 4
    wordsRead (.decodeVec2F32 b x) = [a + x.toNat * 2, a + x.toNat * 2 + 1] ∧
    wordsRead (.decodeVec3F32 b x) = [a + x.toNat * 3, a + x.toNat * 3 + 1, a + x.toNat * 3 + 2] ∧
    wordsRead (.decodeVec4F32 b x) =
      [a + x.toNat * 4, a + x.toNat * 4 + 1, a + x.toNat * 4 + 2, a + x.toNat * 4 + 3] ∧
    wordsRead (.decodeVec4U16 b x) = [a + x.toNat * 2, a + x.toNat * 2 + 1] ∧
    wordsRead (.decodeVec4U8Unorm b x) = [a + x.toNat]) ∧
  (∀ i : Instr, ∀ wa ∈ wordsRead i, wa ≤ 2 ^ 34 + 2 ^ 30 - 2) ∧
  2 ^ 34 + 2 ^ 30 - 2 ∈ wordsRead (.decodeVec4F32 0xFFFFFFFF 0xFFFFFFFF)

/-- R36: the read primitive on every 35-bit word address. -/
def Obligations.BufReadReturnsTheWordOrFaults : Prop :=
  ∀ (b : Buffer) (wa : Nat), wa < 2 ^ 35 →
    (wa < b.words → bufRead b wa = .ok (b.word wa)) ∧
    (b.words ≤ wa → ∃ a : WordAddr, bufRead b wa = .error (.bufOutOfRange a) ∧ a.toNat = wa)

/-- R31: byte offset `n` of the buffer is bits `8*(n mod 4)+7 : 8*(n mod 4)` of word `n div 4`. -/
def Obligations.ByteViewIsLittleEndian : Prop :=
  ∀ (b : Buffer) (n : Nat), b.bytes.read n = (b.word (n / 4)).extractLsb' (8 * (n % 4)) 8

/-- R30, R123: the buffer a producer makes by appending words in ascending order holds exactly those words. -/
def Obligations.AppendedWordsAreTheBuffer : Prop :=
  ∀ ws : List Word, (Buffer.ofWords ws).words = ws.length ∧ (Buffer.ofWords ws).wf = true ∧
    ∀ wa, (h : wa < ws.length) → (Buffer.ofWords ws).word wa = ws[wa]

/-- R103: a misaligned request has the result of the request with `base` rounded down to a multiple of 4. -/
def Obligations.MisalignedBaseActsAsItsMultipleOfFour : Prop :=
  ∀ (b x : Word) (s : State), let a : Word := b &&& 0xFFFFFFFC
    a.toNat = b.toNat - b.toNat % 4 ∧
    (∃ res, exec (.decodeVec2F32 a x) s = s.finish (encode (.decodeVec2F32 a x)) res ∧
      exec (.decodeVec2F32 b x) s = s.finish (encode (.decodeVec2F32 b x)) res) ∧
    (∃ res, exec (.decodeVec3F32 a x) s = s.finish (encode (.decodeVec3F32 a x)) res ∧
      exec (.decodeVec3F32 b x) s = s.finish (encode (.decodeVec3F32 b x)) res) ∧
    (∃ res, exec (.decodeVec4F32 a x) s = s.finish (encode (.decodeVec4F32 a x)) res ∧
      exec (.decodeVec4F32 b x) s = s.finish (encode (.decodeVec4F32 b x)) res) ∧
    (∃ res, exec (.decodeVec4U16 a x) s = s.finish (encode (.decodeVec4U16 a x)) res ∧
      exec (.decodeVec4U16 b x) s = s.finish (encode (.decodeVec4U16 b x)) res) ∧
    (∃ res, exec (.decodeVec4U8Unorm a x) s = s.finish (encode (.decodeVec4U8Unorm a x)) res ∧
      exec (.decodeVec4U8Unorm b x) s = s.finish (encode (.decodeVec4U8Unorm b x)) res)

/-! ### The five operations (40, 41, 42) -/

/-- R71: the two words in range are the response, bit for bit; otherwise the lowest out-of-range address is recorded. -/
def Obligations.DecodeVec2F32DeliversTwoWordsOrFaults : Prop :=
  ∀ (base index : Word) (s : State),
    let wa0 := base.toNat / 4 + index.toNat * 2
    let req := encode (.decodeVec2F32 base index)
    (wa0 + 1 < s.buf.words → exec (.decodeVec2F32 base index) s =
      .next (s.deliver req (.vecF32 [s.buf.word wa0, s.buf.word (wa0 + 1)]))) ∧
    (s.buf.words ≤ wa0 + 1 → exec (.decodeVec2F32 base index) s =
      .next (s.raise req (.bufOutOfRange (BitVec.ofNat 35 (max wa0 s.buf.words)))))

/-- R72. -/
def Obligations.DecodeVec3F32DeliversThreeWordsOrFaults : Prop :=
  ∀ (base index : Word) (s : State),
    let wa0 := base.toNat / 4 + index.toNat * 3
    let req := encode (.decodeVec3F32 base index)
    (wa0 + 2 < s.buf.words → exec (.decodeVec3F32 base index) s =
      .next (s.deliver req (.vecF32 [s.buf.word wa0, s.buf.word (wa0 + 1), s.buf.word (wa0 + 2)]))) ∧
    (s.buf.words ≤ wa0 + 2 → exec (.decodeVec3F32 base index) s =
      .next (s.raise req (.bufOutOfRange (BitVec.ofNat 35 (max wa0 s.buf.words)))))

/-- R73. -/
def Obligations.DecodeVec4F32DeliversFourWordsOrFaults : Prop :=
  ∀ (base index : Word) (s : State),
    let wa0 := base.toNat / 4 + index.toNat * 4
    let req := encode (.decodeVec4F32 base index)
    (wa0 + 3 < s.buf.words → exec (.decodeVec4F32 base index) s =
      .next (s.deliver req (.vecF32
        [s.buf.word wa0, s.buf.word (wa0 + 1), s.buf.word (wa0 + 2), s.buf.word (wa0 + 3)]))) ∧
    (s.buf.words ≤ wa0 + 3 → exec (.decodeVec4F32 base index) s =
      .next (s.raise req (.bufOutOfRange (BitVec.ofNat 35 (max wa0 s.buf.words)))))

/-- R80: the four halfwords, low first within a word, lower word first. -/
def Obligations.DecodeVec4U16DeliversFourHalfwordsOrFaults : Prop :=
  ∀ (base index : Word) (s : State),
    let wa0 := base.toNat / 4 + index.toNat * 2
    let req := encode (.decodeVec4U16 base index)
    let w0 := s.buf.word wa0
    let w1 := s.buf.word (wa0 + 1)
    (wa0 + 1 < s.buf.words → exec (.decodeVec4U16 base index) s =
      .next (s.deliver req (.vecU32
        [w0 &&& 0xFFFF, (w0 >>> 16) &&& 0xFFFF, w1 &&& 0xFFFF, (w1 >>> 16) &&& 0xFFFF]))) ∧
    (s.buf.words ≤ wa0 + 1 → exec (.decodeVec4U16 base index) s =
      .next (s.raise req (.bufOutOfRange (BitVec.ofNat 35 (max wa0 s.buf.words)))))

/-- R85: the four bytes of the word, low to high, each through `UNORM`. -/
def Obligations.DecodeVec4U8UnormDeliversFourBytesOrFaults : Prop :=
  ∀ (base index : Word) (s : State),
    let wa0 := base.toNat / 4 + index.toNat
    let req := encode (.decodeVec4U8Unorm base index)
    let w := s.buf.word wa0
    (wa0 < s.buf.words → exec (.decodeVec4U8Unorm base index) s =
      .next (s.deliver req (.vecF32 [unorm (w.extractLsb' 0 8), unorm (w.extractLsb' 8 8),
        unorm (w.extractLsb' 16 8), unorm (w.extractLsb' 24 8)]))) ∧
    (s.buf.words ≤ wa0 → exec (.decodeVec4U8Unorm base index) s =
      .next (s.raise req (.bufOutOfRange (BitVec.ofNat 35 wa0))))

/-- R74: for a word-aligned base, what was appended comes back bit for bit. -/
def Obligations.FloatDecodesRoundTripTheProducedWords : Prop :=
  ∀ (ws : List Word) (m : Nat) (index : Word), 4 * m < 2 ^ 32 →
    let base := BitVec.ofNat 32 (4 * m)
    let buf := Buffer.ofWords ws
    (m + index.toNat * 2 + 2 ≤ ws.length → resultOf buf (.decodeVec2F32 base index) =
      .ok (.vecF32 ((ws.drop (m + index.toNat * 2)).take 2))) ∧
    (m + index.toNat * 3 + 3 ≤ ws.length → resultOf buf (.decodeVec3F32 base index) =
      .ok (.vecF32 ((ws.drop (m + index.toNat * 3)).take 3))) ∧
    (m + index.toNat * 4 + 4 ≤ ws.length → resultOf buf (.decodeVec4F32 base index) =
      .ok (.vecF32 ((ws.drop (m + index.toNat * 4)).take 4)))

/-- R75: the float decodes differ only in the number of words; requests that address the same words agree on their
common lanes. -/
def Obligations.FloatDecodesAgreeOnCommonLanes : Prop :=
  ∀ (buf : Buffer) (i j : Instr) (ri rj : Response),
    i.opcode.toNat ≤ 2 → j.opcode.toNat ≤ 2 → firstWordOf i = firstWordOf j →
    resultOf buf i = .ok ri → resultOf buf j = .ok rj →
    strideOf i = i.opcode.toNat + 2 ∧
    ri = .vecF32 ((List.range (strideOf i)).map (fun k => buf.word (firstWordOf i + k))) ∧
    ∀ k, k < strideOf i → k < strideOf j → ri.components[k]? = rj.components[k]?

/-- R81: the halfword extractions, as masks and shifts; the results are integers below 65536. -/
def Obligations.HalfwordsAreMaskedAndShifted : Prop :=
  ∀ w : Word, lo16 w = w &&& 0xFFFF ∧ hi16 w = (w >>> 16) &&& 0xFFFF ∧
    (lo16 w).toNat = w.toNat % 65536 ∧ (hi16 w).toNat = w.toNat / 65536 ∧
    (lo16 w).extractLsb' 16 16 = 0 ∧ (hi16 w).extractLsb' 16 16 = 0

/-- R82: the components of the 16-bit decode; the words can be rebuilt from them; component `k` is the 16-bit
little-endian value at byte offset `4*wa0 + 2*k`. -/
def Obligations.PackedHalfwordsLoseNoBit : Prop :=
  ∀ (buf : Buffer) (base index : Word),
    let wa0 := base.toNat / 4 + index.toNat * 2
    wa0 + 1 < buf.words →
    ∃ c0 c1 c2 c3, resultOf buf (.decodeVec4U16 base index) = .ok (.vecU32 [c0, c1, c2, c3]) ∧
      c0 = buf.word wa0 &&& 0xFFFF ∧ c1 = (buf.word wa0 >>> 16) &&& 0xFFFF ∧
      c2 = buf.word (wa0 + 1) &&& 0xFFFF ∧ c3 = (buf.word (wa0 + 1) >>> 16) &&& 0xFFFF ∧
      (buf.word wa0).toNat = c0.toNat + c1.toNat * 65536 ∧
      (buf.word (wa0 + 1)).toNat = c2.toNat + c3.toNat * 65536 ∧
      ∀ k, k < 4 → ([c0, c1, c2, c3].getD k 0).toNat =
        (buf.byteAt (4 * wa0 + 2 * k)).toNat + (buf.byteAt (4 * wa0 + 2 * k + 1)).toNat * 256

/-- R86: the byte extraction, as a bit field, a shift and a mask, and its place in the byte view; component `k` of the
result is the cast of `byte(w, k)`, so that component 0 is made of bits 7:0 and component 3 of bits 31:24. -/
def Obligations.BytesAreTakenLowToHigh : Prop :=
  (∀ (w : Word) (k : Nat), k < 4 →
    byteOf w k = w.extractLsb' (8 * k) 8 ∧
    (byteOf w k).setWidth 32 = (w >>> (8 * k)) &&& 0xFF ∧
    (byteOf w k).toNat = w.toNat / 2 ^ (8 * k) % 256 ∧
    ∀ (buf : Buffer) (wa : Nat), byteOf (buf.word wa) k = buf.byteAt (4 * wa + k)) ∧
  ∀ (buf : Buffer) (b x : Word) (r : Response), resultOf buf (.decodeVec4U8Unorm b x) = .ok r →
    ∀ k, k < 4 → r.components[k]? = some (unorm (byteOf (buf.word (b.toNat / 4 + x.toNat)) k))

/-! ### The unorm cast (42_unorm_decode.md) -/

/-- R87: `UNORM(b)` is the finite binary32 value nearest to b/255, and no other finite value is as near. Values are
compared in units of 2^-149, so `255 * units - b * 2^149` is the error scaled by an exact factor. Which rounding is
used is the spec's decision D7 (log 10); the layout of binary32 is G1 (log 11). -/
def Obligations.UnormIsTheNearestBinary32 : Prop :=
  ∀ (b : Byte) (p : Word), f32Finite p = true →
    f32Finite (unorm b) = true ∧ f32Negative (unorm b) = false ∧
    |255 * f32Units (unorm b) - b.toNat * 2 ^ 149| ≤ |255 * f32Units p - b.toNat * 2 ^ 149| ∧
    (|255 * f32Units p - b.toNat * 2 ^ 149| = |255 * f32Units (unorm b) - b.toNat * 2 ^ 149| →
      f32Units p = f32Units (unorm b))

/-- R87, the integer algorithm of the spec's rounding decision D7 (log 10): `e` is the largest exponent with
`255 * 2^e <= b`, the remainder is never half, and the rounded quotient has 24 bits. -/
def Obligations.UnormAlgorithmIsNormalised : Prop :=
  ∀ b : Nat, 1 ≤ b → b ≤ 255 →
    unormNegExp b ≤ 8 ∧ 255 ≤ b * 2 ^ unormNegExp b ∧ (∀ n, 255 ≤ b * 2 ^ n → unormNegExp b ≤ n) ∧
    2 * (unormScaled b % 255) ≠ 255 ∧ 2 ^ 23 ≤ unormMantissa b ∧ unormMantissa b < 2 ^ 24

/-- R88: all 256 entries of the table, particular values that rest on the spec's decision D7 (log 10). -/
def Obligations.UnormEqualsTheSpecTable : Prop :=
  ∀ b : Byte, unorm b = unormTable b

/-- R89: the named properties (a) to (e). The particular values and the inexactness of bytes 1 to 254 rest on the spec's
rounding decision D7 (log 10; R90 asks that this be said); the clauses on values and classes read the patterns as
binary32, whose layout is presumed (G1, log 11). -/
def Obligations.UnormHasTheNamedProperties : Prop :=
  (unorm 0 = 0x00000000 ∧ unorm 255 = 0x3F800000) ∧
  (unormInexact 0 = false ∧ unormInexact 255 = false ∧
    ∀ b : Byte, 1 ≤ b.toNat → b.toNat ≤ 254 → unormInexact b = true ∧
      (b.toNat : Int) * 2 ^ 149 < 255 * f32Units (unorm b) ∧
      255 * f32Units (unorm b - 1) < (b.toNat : Int) * 2 ^ 149) ∧
  (∀ a b : Byte, a.toNat < b.toNat →
    (unorm a).toNat < (unorm b).toNat ∧ f32Units (unorm a) < f32Units (unorm b)) ∧
  (∀ b : Byte, f32Negative (unorm b) = false ∧ 0 ≤ f32Units (unorm b) ∧ f32Units (unorm b) ≤ f32One ∧
    (b ≠ 0 → f32Class (unorm b) = .normal ∧ (unorm 1).toNat ≤ (unorm b).toNat)) ∧
  unorm 1 = 0x3B808081 ∧
  (∀ a b : Byte, unorm a = unorm b → a = b)

/-! ### Responses and faults (10_state.md, 60_exceptions.md) -/

/-- R17, R20, R22: a response goes to the RSP of the unit that performed the request, behind the earlier ones, and
that unit then holds nothing of the request; nothing else changes but the list of responses. That RSP takes the response
however many wait there is the model's choice (log 23). -/
def Obligations.DeliveredResponseGoesToTheActiveUnit : Prop :=
  ∀ (w : Request) (r : Response) (s : State),
    (s.deliver w r).buf = s.buf ∧ (s.deliver w r).faults = s.faults ∧ (s.deliver w r).schedule = s.schedule ∧
    (s.deliver w r).answered = s.answered ++ [(w, r)] ∧
    (s.deliver w r).units.length = s.units.length ∧
    (∀ u, u ≠ s.active → (s.deliver w r).units[u]? = s.units[u]?) ∧
    (∀ d, s.units[s.active]? = some d → (s.deliver w r).units[s.active]? =
      some { req := d.req, inProgress := none, rsp := d.rsp ++ [r] })

/-- R105: a raised fault delivers no response, adds its request, code and info to the record, which no later step
clears, and leaves every other unit and request untouched. That the entry is added at the end, and the record grows at
its end, is the model's choice (R106 gives no order; log 9); the schedule is the model's own field (log 2); the code
numbers are those of the table of 60_exceptions.md section 2 (D22). -/
def Obligations.RaisedFaultIsRecordedForTheWholeRun : Prop :=
  (∀ (w : Request) (f : Fault) (s : State),
    (s.raise w f).faults = s.faults ++ [{ request := w, fault := f }] ∧
    (s.raise w f).answered = s.answered ∧ (s.raise w f).buf = s.buf ∧ (s.raise w f).schedule = s.schedule ∧
    (s.raise w f).units.length = s.units.length ∧
    (∀ u, u ≠ s.active → (s.raise w f).units[u]? = s.units[u]?) ∧
    (∀ d, s.units[s.active]? = some d →
      (s.raise w f).units[s.active]? = some { req := d.req, inProgress := none, rsp := d.rsp })) ∧
  (∀ op : BitVec 3, (Fault.illegalOp op).code = 1 ∧ (Fault.illegalOp op).info = op.toNat) ∧
  (∀ wa : WordAddr, (Fault.bufOutOfRange wa).code = 2 ∧ (Fault.bufOutOfRange wa).info = wa.toNat) ∧
  (∀ (k : Nat) (s t : State), Runs k s t → s.faults <+: t.faults)

/-- R104: a request with a reserved op code raises `IllegalOp(op)` in every state: no read is performed and no
response delivered. -/
def Obligations.ReservedOpRaisesIllegalOp : Prop :=
  ∀ (w : Request) (s : State), 5 ≤ (w.extractLsb' 64 3).toNat →
    performRequest w s = .next (s.raise w (.illegalOp (w.extractLsb' 64 3)))

/-- R102: an operation faults exactly when one of its words is out of range, and it records the lowest such address. -/
def Obligations.OutOfRangeRecordsTheLowestAddress : Prop :=
  ∀ (i : Instr) (s : State),
    (firstWordOf i + strideOf i ≤ s.buf.words → ∃ r, exec i s = .next (s.deliver (encode i) r)) ∧
    (s.buf.words < firstWordOf i + strideOf i →
      ∃ wa : WordAddr, exec i s = .next (s.raise (encode i) (.bufOutOfRange wa)) ∧
        wa.toNat = max (firstWordOf i) s.buf.words ∧ wa.toNat ∈ wordsRead i ∧
        ∀ x ∈ wordsRead i, s.buf.words ≤ x → wa.toNat ≤ x)

/-- R106: a reserved op code is found before anything else; of several out-of-range words the lowest is recorded; a
base that is also misaligned changes only the address formed. -/
def Obligations.FaultPriorityIsOpThenLowestAddress : Prop :=
  ∀ (w : Request) (s t : State), performRequest w s = .next t →
    (5 ≤ (w.extractLsb' 64 3).toNat → t.faults = s.faults ++ [⟨w, .illegalOp (w.extractLsb' 64 3)⟩]) ∧
    (∀ i, decode w = .ok i → ∀ f, t.faults = s.faults ++ [⟨w, f⟩] →
      f = .bufOutOfRange (BitVec.ofNat 35 (max (i.base.toNat / 4 + i.index.toNat * strideOf i) s.buf.words)))

/-- R120: with an empty buffer every legal request faults at its first word. -/
def Obligations.EmptyBufferFaultsEveryRequest : Prop :=
  ∀ (i : Instr) (s : State), s.buf.words = 0 →
    exec i s = .next (s.raise (encode i) (.bufOutOfRange (BitVec.ofNat 35 (firstWordOf i))))

/-! ### The operation and the step (10_state.md) -/

/-- R21: two states of any kind whose buffers hold the words the operation reads, and agree on them, give the same
response. -/
def Obligations.ResponseDependsOnTheWordsReadAlone : Prop :=
  ∀ (i : Instr) (s t : State),
    (∀ wa ∈ wordsRead i, wa < s.buf.words ∧ wa < t.buf.words ∧ s.buf.word wa = t.buf.word wa) →
    ∃ r, exec i s = .next (s.deliver (encode i) r) ∧ exec i t = .next (t.deliver (encode i) r)

/-- R10 to R14, R22, R39, R105, the frame of all five operations: every byte of memory, `BUF_WORDS`, the schedule,
every other unit and the REQ of the performing unit are unchanged; exactly one response or one record entry is added. -/
def Obligations.OperationFrame : Prop :=
  ∀ (i : Instr) (s t : State), exec i s = .next t →
    (∀ a, t.buf.bytes.read a = s.buf.bytes.read a) ∧ t.buf = s.buf ∧ t.schedule = s.schedule ∧
    t.active = s.active ∧ t.units.length = s.units.length ∧
    (∀ u, u ≠ s.active → t.units[u]? = s.units[u]?) ∧
    (∀ d, s.units[s.active]? = some d → ∃ e, t.units[s.active]? = some e ∧ e.req = d.req ∧ e.inProgress = none ∧
      ((∃ r, e.rsp = d.rsp ++ [r] ∧ t.answered = s.answered ++ [(encode i, r)] ∧ t.faults = s.faults) ∨
       (∃ f, e.rsp = d.rsp ∧ t.answered = s.answered ∧ t.faults = s.faults ++ [⟨encode i, f⟩])))

/-- R128: every operation and every step answers a next state; nothing is ever stuck. Channels without back-pressure are
the model's choice (log 23). -/
def Obligations.EveryStepAnswersANextState : Prop :=
  (∀ (i : Instr) (s : State), ∃ t, exec i s = .next t) ∧ (∀ s : State, ∃ t, step s = .next t)

/-- R17, R18: the step of a unit whose turn it is and that has an outstanding request: the request is taken and, where
it decodes to an operation, the step is that operation on the state so made; a reserved op code is rejected there. That
the request is taken whatever waits on RSP is the model's choice (log 23), as is the schedule (log 2). -/
def Obligations.StepPerformsTheDecodedRequest : Prop :=
  ∀ (s : State) (d : DecoderUnit) (w : Request) (rest : List Request),
    s.units[s.turn]? = some d → d.outstanding = w :: rest →
    let taken : State := { s with
      units := s.units.set s.turn { d with inProgress := some w, req := rest }
      active := s.turn
      schedule := s.schedule.tail }
    (∀ i, decode w = .ok i → step s = exec i taken) ∧
    (∀ op, decode w = .error (.reservedOp op) → step s = .next (taken.raise w (.illegalOp op)))

/-- R121: a unit whose turn it is and that has no outstanding request waits: only the schedule moves on. -/
def Obligations.UnitWithoutARequestWaits : Prop :=
  ∀ s : State, (∀ d, s.units[s.turn]? = some d → d.outstanding = []) →
    step s = .next { s with schedule := s.schedule.tail }

/-- The model's placing of a request (log 1): the very next step performs the request word placed. -/
def Obligations.PlacedRequestIsPerformedNext : Prop :=
  ∀ (s : State) (nbits w : Nat) (i : Instr), decodeTableWord nbits w = some i →
    ∃ t, step (s.withFetchWord nbits w) = exec i t ∧ t.buf = s.buf ∧ t.active = 0 ∧
      t.schedule = s.schedule ∧ t.answered = s.answered ∧ t.faults = s.faults

/-- R39, R40: no step changes the buffer, `BUF_WORDS` or the number of units. -/
def Obligations.BufferIsFrozenDuringARun : Prop :=
  ∀ (k : Nat) (s t : State), Runs k s t → BufferFrozen s t ∧ t.units.length = s.units.length

/-! ### Invariants and runs -/

/-- Every step keeps the invariant: the buffer's canonical form, at least one unit, no unit between taking and
answering, and every response and fault recorded is the outcome of its request on this buffer (R17, R18, R21, R105). -/
def Obligations.StepKeepsTheInvariant : Prop :=
  ∀ s t : State, Inv s → step s = .next t → Inv t

/-- The invariant holds at reset and at every launch (R24, R130). -/
def Obligations.ResetAndLaunchMeetTheInvariant : Prop :=
  Inv State.reset ∧
  ∀ (ws : List Word) (queues : List (List Request)) (schedule : List Nat), queues ≠ [] →
    Inv (State.launch (Buffer.ofWords ws) queues schedule)

/-- R23, R129, R132: schedule independence. Two runs over the same buffer, from states whose outstanding requests are
the same up to order and that start with nothing delivered and nothing recorded, end with the same responses to the
same requests and the same fault record, up to order, whatever the units, their number and the schedules. -/
def Obligations.EveryScheduleGivesTheSameResponses : Prop :=
  ∀ (s₁ s₂ t₁ t₂ : State) (k₁ k₂ : Nat), s₁.buf = s₂.buf → s₁.outstanding.Perm s₂.outstanding →
    s₁.answered = [] → s₂.answered = [] → s₁.faults = [] → s₂.faults = [] →
    Runs k₁ s₁ t₁ → Runs k₂ s₂ t₂ → Ended t₁ → Ended t₂ →
    t₁.answered.Perm t₂.answered ∧ t₁.faults.Perm t₂.faults

/-- R129: at the end of a run every request has either its response or its entry in the fault record. -/
def Obligations.EndedRunAnswersOrRecordsEveryRequest : Prop :=
  ∀ (k : Nat) (s t : State), Runs k s t → Ended t →
    (t.answered.map Prod.fst ++ t.faults.map FaultEntry.request).Perm
      (s.answered.map Prod.fst ++ s.faults.map FaultEntry.request ++ s.outstanding)

/-- R17: responses of one unit come in the order of its requests: what it served was the front of its queue, and the
responses among the outcomes follow the earlier ones on its RSP in that order. RSP without a bound is the model's choice
(log 23). -/
def Obligations.UnitAnswersInRequestOrder : Prop :=
  ∀ (k : Nat) (s t : State) (u : Nat) (d : DecoderUnit), Runs k s t → s.units[u]? = some d →
    ∃ e served, t.units[u]? = some e ∧ d.outstanding = served ++ e.outstanding ∧
      e.rsp = d.rsp ++ served.filterMap (fun w => (outcomeOf s.buf w).toOption)

/-- R124, R130: under `RequestsValid` no step faults. -/
def Obligations.ValidRequestsNeverFault : Prop :=
  ∀ (k : Nat) (s t : State), RequestsValid s → Runs k s t →
    t.faults = s.faults ∧ RequestsValid t ∧ (Ended t → NoFaultRecorded s → EndedSuccessfully t)

/-- R128: no run with finitely many requests is infinite: after as many steps as the schedule names and as there are
outstanding requests, the run has ended. The schedule's part of the bound is the model's: its entries are a field of the
model's own (log 2), and one that names a unit without a request uses up a step (log 17). That no unit waits for a response to be
taken is the model's choice too (log 23). -/
def Obligations.EveryRunEnds : Prop :=
  ∀ s : State, ∃ t, Runs (s.schedule.length + s.outstanding.length) s t ∧ Ended t

/-- R40, R109, R132: a request performed again at any later point of a run has the same outcome. -/
def Obligations.RepeatedRequestHasTheSameOutcome : Prop :=
  ∀ (k : Nat) (s t : State) (w : Request), Runs k s t →
    ∃ res, performRequest w s = s.finish w res ∧ performRequest w t = t.finish w res

/-! ### The host's moves (70_reset_and_hazards.md, 30_encoding.md) -/

/-- R24, R120: reset makes every unit idle and empties the channels and the fault record; the buffer, `BUF_WORDS` and
`NUNITS` are untouched; with nothing appended `BUF_WORDS` is 0. -/
def Obligations.ResetLeavesIdleUnitsAndTheBufferAlone : Prop :=
  (∀ s : State, s.applyReset.buf = s.buf ∧ s.applyReset.units.length = s.units.length ∧
    (∀ d ∈ s.applyReset.units, d.req = [] ∧ d.inProgress = none ∧ d.rsp = []) ∧
    s.applyReset.faults = [] ∧ s.applyReset.outstanding = []) ∧
  State.reset.buf.words = 0 ∧ State.reset.buf.bytes = [] ∧ State.reset.faults = [] ∧
  (∀ d ∈ State.reset.units, d.req = [] ∧ d.inProgress = none ∧ d.rsp = [])

/-- R125: while a request is outstanding the producer has no move; otherwise it appends or rewrites, and the words
not written are as before. -/
def Obligations.ProducerWritesOnlyBetweenRuns : Prop :=
  ∀ (v : Word) (y : Byte) (n : Nat) (s : State),
    (s.outstanding ≠ [] → s.appendWord v = .refused .bufferFrozen ∧ s.rewriteWord n v = .refused .bufferFrozen ∧
      s.rewriteByte n y = .refused .bufferFrozen) ∧
    (s.outstanding = [] → s.buf.wf = true →
      (∃ t, s.appendWord v = .next t ∧ t.buf.wf = true ∧ t.buf.words = s.buf.words + 1 ∧ t.units = s.units ∧
        ∀ x, t.buf.word x = if x = s.buf.words then v else s.buf.word x) ∧
      (n < s.buf.words → ∃ t, s.rewriteWord n v = .next t ∧ t.buf.wf = true ∧ t.buf.words = s.buf.words ∧
        t.units = s.units ∧ ∀ x, t.buf.word x = if x = n then v else s.buf.word x) ∧
      (n < 4 * s.buf.words → ∃ t, s.rewriteByte n y = .next t ∧ t.buf.wf = true ∧ t.buf.words = s.buf.words ∧
        t.units = s.units ∧ ∀ x, t.buf.byteAt x = if x = n then y else s.buf.byteAt x))

/-- R131: an issued request joins the end of its unit's REQ and changes no other unit; the requester takes the
responses of a unit oldest first. That REQ always has room is the model's choice (log 23). -/
def Obligations.RequesterIssuesAndTakesInOrder : Prop :=
  (∀ (u : Nat) (w : Request) (s : State) (d : DecoderUnit), s.units[u]? = some d →
    ∃ t, s.issue u w = .next t ∧ t.units[u]? = some { d with req := d.req ++ [w] } ∧ t.buf = s.buf ∧
      t.answered = s.answered ∧ t.faults = s.faults ∧ ∀ x, x ≠ u → t.units[x]? = s.units[x]?) ∧
  (∀ (u : Nat) (s : State) (d : DecoderUnit) (r : Response) (rest : List Response),
    s.units[u]? = some d → d.rsp = r :: rest →
    ∃ t, s.takeResponse u = some (r, t) ∧ t.units[u]? = some { d with rsp := rest } ∧ t.buf = s.buf ∧
      t.outstanding = s.outstanding ∧ ∀ x, x ≠ u → t.units[x]? = s.units[x]?)

/-- R130: the launch state of a run meets its premises, and its outstanding requests are the ones assigned. -/
def Obligations.LaunchStateMeetsThePremises : Prop :=
  ∀ (ws : List Word) (queues : List (List Request)) (schedule : List Nat),
    let s := State.launch (Buffer.ofWords ws) queues schedule
    BufferComplete ws s ∧ NoFaultRecorded s ∧ UnitsIdle s ∧ s.outstanding = queues.flatten ∧
      s.units.length = queues.length

/-- R63, R65: a triangle assembled from three ordinary `decode_vec3_f32` requests holds the nine buffer words and the
three original indices, whatever base the requester passes for each corner (a base of its own for each corner is the
model's choice, log 19). -/
def Obligations.TriangleHoldsTheDecodedPositions : Prop :=
  ∀ (s : State) (corners : Vector (Word × Indices) 3) (indices : Vector Word 3),
    (∀ c ∈ corners, c.1.toNat / 4 + c.2.vertex.toNat * 3 + 3 ≤ s.buf.words) →
    ∃ r0 r1 r2 : Response,
      (triangleRequests corners).map (resultOf s.buf) = [.ok r0, .ok r1, .ok r2] ∧
      packTriangle r0 r1 r2 indices = some
        { vertices := corners.map (fun c =>
            let wa0 := c.1.toNat / 4 + c.2.vertex.toNat * 3
            #v[s.buf.word wa0, s.buf.word (wa0 + 1), s.buf.word (wa0 + 2)])
          indices := indices }

/-! ### The determinism test (70_reset_and_hazards.md R132) -/

/-- R132: the determinism test passes for EVERY buffer, set of requests, distribution over units, order on each unit
and schedule, not for P3 alone: all on one unit in issue order, against any spread of the same requests, both runs end
with bit-identical responses to the same requests and the same faults, and repeated requests have bit-identical
responses in both. That the interleaving is a list is the model's choice (log 2), as are the order of the lists
compared (log 9) and channels without back-pressure, by which both runs end (log 23). -/
def Obligations.DeterminismTestPassesForEverySpread : Prop :=
  ∀ (buf : Buffer) (requests : List Request) (queues : List (List Request)) (schedule : List Nat),
    queues.flatten.Perm requests → determinismTest buf requests queues schedule = true
end

