-- ==== Sys2Proof/Laws/Memory.lean ====
section
/-! SUPPORT. The laws of memory and the buffer: read after write, the canonical form is kept, and what a written word
reads as. -/

namespace Sys2Proof.Machine

/-! ### Bytes -/

@[simp] theorem Memory.read_nil (x : Nat) : Memory.read [] x = 0 := rfl

theorem Memory.read_cons (a : Nat) (v : Byte) (rest : Memory) (x : Nat) :
    Memory.read ((a, v) :: rest) x = if a = x then v else Memory.read rest x := rfl

theorem Memory.wf_cons (a : Nat) (v : Byte) (rest : Memory) :
    Memory.wf ((a, v) :: rest) = true ↔ v ≠ 0 ∧ (∀ c ∈ rest, a < c.1) ∧ Memory.wf rest = true := by
  simp [Memory.wf, and_assoc]

/-- Below every listed address there is nothing listed. -/
theorem Memory.read_of_lt (m : Memory) (x : Nat) (h : ∀ c ∈ m, x < c.1) : m.read x = 0 := by
  induction m with
  | nil => rfl
  | cons c rest ih =>
    obtain ⟨a, v⟩ := c
    have ha : x < a := h (a, v) (by simp)
    rw [Memory.read_cons, if_neg (by omega)]
    exact ih fun c hc => h c (by simp [hc])

/-- A read after a write: the byte written at its address, every other byte as before. -/
theorem Memory.read_write (m : Memory) (hm : m.wf = true) (x y : Nat) (v : Byte) :
    (m.write x v).read y = if y = x then v else m.read y := by
  induction m with
  | nil =>
    by_cases hv : v = 0
    · simp [Memory.write, hv]
    · simp only [Memory.write, hv, if_false, Memory.read_cons, Memory.read_nil]
      simp [eq_comm]
  | cons c rest ih =>
    obtain ⟨a, u⟩ := c
    obtain ⟨-, hlt, hrest⟩ := (Memory.wf_cons a u rest).1 hm
    have below : ∀ z, z ≤ a → Memory.read rest z = 0 := fun z hz =>
      Memory.read_of_lt rest z fun c hc => lt_of_le_of_lt hz (hlt c hc)
    unfold Memory.write
    split
    · next hxa =>
      split
      · next hv =>
        subst hv
        by_cases hy : y = x
        · subst hy; simp [Memory.read_cons, below y hxa.le, hxa.ne']
        · simp [hy]
      · by_cases hy : y = x
        · simp [Memory.read_cons, hy]
        · simp [Memory.read_cons, hy, Ne.symm hy]
    · split
      · next hxa =>
        subst hxa
        split
        · next hv =>
          subst hv
          by_cases hy : y = x
          · subst hy; simp [below y le_rfl]
          · simp [Memory.read_cons, hy, Ne.symm hy]
        · by_cases hy : y = x
          · simp [Memory.read_cons, hy]
          · simp [Memory.read_cons, hy, Ne.symm hy]
      · next hxa =>
        rw [Memory.read_cons, ih hrest, Memory.read_cons]
        by_cases hy : a = y
        · subst hy; simp [Ne.symm hxa]
        · simp [hy]

/-- Every listed address after a write was listed before or is the one written. -/
theorem Memory.mem_write (m : Memory) (x : Nat) (v : Byte) (c : Host.Cell) (hc : c ∈ m.write x v) :
    c.1 = x ∨ c ∈ m := by
  induction m with
  | nil =>
    unfold Memory.write at hc
    split at hc <;> simp_all
  | cons d rest ih =>
    obtain ⟨a, u⟩ := d
    unfold Memory.write at hc
    split at hc
    · split at hc
      · exact .inr hc
      · rcases List.mem_cons.1 hc with rfl | h
        · exact .inl rfl
        · exact .inr h
    · split at hc
      · split at hc
        · exact .inr (List.mem_cons_of_mem _ hc)
        · rcases List.mem_cons.1 hc with rfl | h
          · exact .inl rfl
          · exact .inr (List.mem_cons_of_mem _ h)
      · rcases List.mem_cons.1 hc with rfl | h
        · exact .inr (by simp)
        · exact (ih h).imp_right (List.mem_cons_of_mem _)

/-- A write keeps the canonical form. -/
theorem Memory.wf_write (m : Memory) (hm : m.wf = true) (x : Nat) (v : Byte) : (m.write x v).wf = true := by
  induction m with
  | nil =>
    unfold Memory.write
    split
    · rfl
    · next hv => exact (Memory.wf_cons x v []).2 ⟨hv, by simp, rfl⟩
  | cons c rest ih =>
    obtain ⟨a, u⟩ := c
    obtain ⟨hu, hlt, hrest⟩ := (Memory.wf_cons a u rest).1 hm
    unfold Memory.write
    split
    · next hxa =>
      split
      · exact hm
      · next hv =>
        refine (Memory.wf_cons x v _).2 ⟨hv, fun c hc => ?_, hm⟩
        rcases List.mem_cons.1 hc with rfl | h
        · exact hxa
        · exact hxa.trans (hlt c h)
    · split
      · next hxa =>
        subst hxa
        split
        · exact hrest
        · next hv => exact (Memory.wf_cons x v _).2 ⟨hv, hlt, hrest⟩
      · next hnlt hne =>
        refine (Memory.wf_cons a u _).2 ⟨hu, fun c hc => ?_, ih hrest⟩
        rcases Memory.mem_write rest x v c hc with h | h
        · rw [h]; omega
        · exact hlt c h

/-! ### Words -/

theorem Memory.wf_writeWord (m : Memory) (hm : m.wf = true) (wa : Nat) (v : Word) :
    (m.writeWord wa v).wf = true :=
  Memory.wf_write _ (Memory.wf_write _ (Memory.wf_write _ (Memory.wf_write _ hm _ _) _ _) _ _) _ _

/-- A byte after a word was stored: byte `k` of the word at `4*wa + k`, every other byte as before. -/
theorem Memory.read_writeWord (m : Memory) (hm : m.wf = true) (wa : Nat) (v : Word) (y : Nat) :
    (m.writeWord wa v).read y =
      if y / 4 = wa then v.extractLsb' (8 * (y % 4)) 8 else m.read y := by
  have h0 := Memory.wf_write m hm (4 * wa) (v.extractLsb' 0 8)
  have h1 := Memory.wf_write _ h0 (4 * wa + 1) (v.extractLsb' 8 8)
  have h2 := Memory.wf_write _ h1 (4 * wa + 2) (v.extractLsb' 16 8)
  unfold Memory.writeWord
  rw [Memory.read_write _ h2, Memory.read_write _ h1, Memory.read_write _ h0, Memory.read_write _ hm]
  by_cases h : y / 4 = wa
  · have hy : y = 4 * wa + y % 4 := by omega
    have hk : y % 4 = 0 ∨ y % 4 = 1 ∨ y % 4 = 2 ∨ y % 4 = 3 := by omega
    rw [if_pos h]
    rcases hk with hk | hk | hk | hk <;> rw [hk] at hy ⊢ <;> subst hy <;> simp
  · rw [if_neg h, if_neg (by omega), if_neg (by omega), if_neg (by omega), if_neg (by omega)]

theorem Memory.mem_writeWord (m : Memory) (wa : Nat) (v : Word) (c : Host.Cell) (hc : c ∈ m.writeWord wa v) :
    c.1 / 4 = wa ∨ c ∈ m := by
  unfold Memory.writeWord at hc
  rcases Memory.mem_write _ _ _ _ hc with h | h
  · left; omega
  · rcases Memory.mem_write _ _ _ _ h with h | h
    · left; omega
    · rcases Memory.mem_write _ _ _ _ h with h | h
      · left; omega
      · exact (Memory.mem_write _ _ _ _ h).imp_left (by omega)

/-- Four bytes of a word put together again are the word. -/
theorem word_of_its_bytes (v : Word) :
    (v.extractLsb' 24 8 ++ v.extractLsb' 16 8 ++ v.extractLsb' 8 8 ++ v.extractLsb' 0 8 : BitVec (8 + 8 + 8 + 8)) = v := by
  ext i hi
  simp only [BitVec.getElem_append, BitVec.getElem_extractLsb']
  rw [← BitVec.getLsbD_eq_getElem hi]
  split
  · simp
  · split
    · congr 1; omega
    · split
      · congr 1; omega
      · congr 1; omega

/-- The word stored is the word read, every other word reads as before. -/
theorem Buffer.word_writeWord (b : Buffer) (hb : b.bytes.wf = true) (n wa : Nat) (v : Word) (x : Nat) :
    Buffer.word { bytes := b.bytes.writeWord wa v, words := n } x = if x = wa then v else b.word x := by
  unfold Buffer.word
  simp only [Memory.read_writeWord _ hb]
  by_cases h : x = wa
  · subst h
    have e3 : (4 * x + 3) / 4 = x := by omega
    have e2 : (4 * x + 2) / 4 = x := by omega
    have e1 : (4 * x + 1) / 4 = x := by omega
    have e0 : 4 * x / 4 = x := by omega
    have m3 : (4 * x + 3) % 4 = 3 := by omega
    have m2 : (4 * x + 2) % 4 = 2 := by omega
    have m1 : (4 * x + 1) % 4 = 1 := by omega
    have m0 : 4 * x % 4 = 0 := by omega
    simp only [e3, e2, e1, e0, m3, m2, m1, m0, if_true]
    exact word_of_its_bytes v
  · rw [if_neg h, if_neg (by omega), if_neg (by omega), if_neg (by omega), if_neg (by omega)]

/-! ### Buffers -/

theorem Buffer.wf_iff (b : Buffer) :
    b.wf = true ↔ b.bytes.wf = true ∧ ∀ c ∈ b.bytes, c.1 < 4 * b.words := by
  simp [Buffer.wf]

/-- The empty buffer is in canonical form. -/
theorem Buffer.wf_empty : Buffer.wf { bytes := [], words := 0 } = true := rfl

/-- Appending keeps the canonical form. -/
theorem Buffer.wf_append (b : Buffer) (hb : b.wf = true) (v : Word) : (b.append v).wf = true := by
  obtain ⟨h1, h2⟩ := (Buffer.wf_iff b).1 hb
  refine (Buffer.wf_iff _).2 ⟨Memory.wf_writeWord _ h1 _ _, fun c hc => ?_⟩
  rcases Memory.mem_writeWord _ _ _ c hc with h | h
  · show c.1 < 4 * (b.words + 1); omega
  · have := h2 c h
    show c.1 < 4 * (b.words + 1); omega

/-- Rewriting a word inside the buffer keeps the canonical form. -/
theorem Buffer.wf_rewriteWord (b : Buffer) (hb : b.wf = true) (wa : Nat) (hw : wa < b.words) (v : Word) :
    Buffer.wf { b with bytes := b.bytes.writeWord wa v } = true := by
  obtain ⟨h1, h2⟩ := (Buffer.wf_iff b).1 hb
  refine (Buffer.wf_iff _).2 ⟨Memory.wf_writeWord _ h1 _ _, fun c hc => ?_⟩
  rcases Memory.mem_writeWord _ _ _ c hc with h | h
  · show c.1 < 4 * b.words; omega
  · exact h2 c h

/-- Rewriting a byte inside the buffer keeps the canonical form. -/
theorem Buffer.wf_rewriteByte (b : Buffer) (hb : b.wf = true) (n : Nat) (hn : n < 4 * b.words) (v : Byte) :
    Buffer.wf { b with bytes := b.bytes.write n v } = true := by
  obtain ⟨h1, h2⟩ := (Buffer.wf_iff b).1 hb
  refine (Buffer.wf_iff _).2 ⟨Memory.wf_write _ h1 _ _, fun c hc => ?_⟩
  rcases Memory.mem_write _ _ _ c hc with h | h
  · show c.1 < 4 * b.words; omega
  · exact h2 c h

/-- Reset memory is in canonical form. -/
theorem State.reset_buf_wf : State.reset.buf.wf = true := rfl

@[simp] theorem Buffer.words_append (b : Buffer) (v : Word) : (b.append v).words = b.words + 1 := rfl

/-- A word of the appended buffer. -/
theorem Buffer.word_append (b : Buffer) (hb : b.wf = true) (v : Word) (x : Nat) :
    (b.append v).word x = if x = b.words then v else b.word x :=
  Buffer.word_writeWord b ((Buffer.wf_iff b).1 hb).1 _ _ v x

end Sys2Proof.Machine
end

