-- ==== Sys2Proof/Laws/PerInstr.lean ====
section
/-! SUPPORT. The family `TableRow`: the encoding of every instruction is well-formed and matches its row of
spec/opcode_table.json, that is, under the mask `7 * 2^64` it is the row's match value `op * 2^64` (R66). -/

namespace Sys2Proof.Laws.TableRow

/-- The match value of an instruction's row in spec/opcode_table.json. -/
def matchOf : Instr → Request
  | .decodeVec2F32 _ _ => 0x00000000000000000
  | .decodeVec3F32 _ _ => 0x10000000000000000
  | .decodeVec4F32 _ _ => 0x20000000000000000
  | .decodeVec4U16 _ _ => 0x30000000000000000
  | .decodeVec4U8Unorm _ _ => 0x40000000000000000

def Statement (i : Instr) : Prop :=
  i.wellFormed = true ∧ wellFormedRequest (encode i) = true ∧ encode i &&& 0x70000000000000000#67 = matchOf i

/-- The op field of a request put together from its fields. -/
theorem op_of_fields (op : BitVec 3) (b x : Word) :
    (op ++ b ++ x : BitVec (3 + 32 + 32)).extractLsb' 64 3 = op := by
  ext k hk
  simp only [BitVec.getElem_extractLsb', BitVec.getLsbD_append]
  rw [if_neg (by omega), if_neg (by omega), ← BitVec.getLsbD_eq_getElem hk]
  congr 1; omega

/-- The mask keeps the op field alone. -/
theorem masked_fields (op : BitVec 3) (b x : Word) :
    (op ++ b ++ x : BitVec (3 + 32 + 32)) &&& 0x70000000000000000#67 = (op ++ 0#32 ++ 0#32 : BitVec (3 + 32 + 32)) := by
  have mask : (0x70000000000000000#67) = (7#3 ++ 0#32 ++ 0#32 : BitVec (3 + 32 + 32)) := by decide
  rw [mask, BitVec.and_append, BitVec.and_append]
  have h7 : op &&& 7#3 = op := by revert op; decide
  simp [h7]

theorem of_opcode (i : Instr) (op : BitVec 3) (hop : i.opcode = op) (hw : i.wellFormed = true) (h4 : op.toNat ≤ 4)
    (hm : (op ++ 0#32 ++ 0#32 : BitVec (3 + 32 + 32)) = matchOf i) : Statement i := by
  subst hop
  refine ⟨hw, ?_, (masked_fields _ _ _).trans hm⟩
  unfold wellFormedRequest
  rw [show (encode i).extractLsb' 64 3 = i.opcode from op_of_fields _ _ _]
  exact decide_eq_true h4

theorem decodeVec2F32 (base index : Word) : Statement (.decodeVec2F32 base index) :=
  of_opcode _ 0 rfl rfl (by decide) rfl

theorem decodeVec3F32 (base index : Word) : Statement (.decodeVec3F32 base index) :=
  of_opcode _ 1 rfl rfl (by decide) rfl

theorem decodeVec4F32 (base index : Word) : Statement (.decodeVec4F32 base index) :=
  of_opcode _ 2 rfl rfl (by decide) rfl

theorem decodeVec4U16 (base index : Word) : Statement (.decodeVec4U16 base index) :=
  of_opcode _ 3 rfl rfl (by decide) rfl

theorem decodeVec4U8Unorm (base index : Word) : Statement (.decodeVec4U8Unorm base index) :=
  of_opcode _ 4 rfl rfl (by decide) rfl

end Sys2Proof.Laws.TableRow
end

