-- ==== Sys2Proof/Laws/State.lean ====
section
/-! SUPPORT. One lemma per field for each state update: delivering, raising, waiting and resetting. No later proof
unfolds a record update. -/

namespace Sys2Proof.Machine

variable (w : Request) (r : Response) (f : Fault) (s : State)

@[simp] theorem deliver_buf : (s.deliver w r).buf = s.buf := rfl
@[simp] theorem deliver_active : (s.deliver w r).active = s.active := rfl
@[simp] theorem deliver_schedule : (s.deliver w r).schedule = s.schedule := rfl
@[simp] theorem deliver_faults : (s.deliver w r).faults = s.faults := rfl
@[simp] theorem deliver_answered : (s.deliver w r).answered = s.answered ++ [(w, r)] := rfl
@[simp] theorem deliver_units : (s.deliver w r).units =
    s.units.modify s.active (fun d => { d with inProgress := none, rsp := d.rsp ++ [r] }) := rfl

@[simp] theorem raise_buf : (s.raise w f).buf = s.buf := rfl
@[simp] theorem raise_active : (s.raise w f).active = s.active := rfl
@[simp] theorem raise_schedule : (s.raise w f).schedule = s.schedule := rfl
@[simp] theorem raise_answered : (s.raise w f).answered = s.answered := rfl
@[simp] theorem raise_faults : (s.raise w f).faults = s.faults ++ [{ request := w, fault := f }] := rfl
@[simp] theorem raise_units : (s.raise w f).units =
    s.units.modify s.active (fun d => { d with inProgress := none }) := rfl

@[simp] theorem wait_buf : s.wait.buf = s.buf := rfl
@[simp] theorem wait_units : s.wait.units = s.units := rfl
@[simp] theorem wait_active : s.wait.active = s.active := rfl
@[simp] theorem wait_schedule : s.wait.schedule = s.schedule.tail := rfl
@[simp] theorem wait_answered : s.wait.answered = s.answered := rfl
@[simp] theorem wait_faults : s.wait.faults = s.faults := rfl
@[simp] theorem wait_outstanding : s.wait.outstanding = s.outstanding := rfl

@[simp] theorem applyReset_buf : s.applyReset.buf = s.buf := rfl
@[simp] theorem applyReset_units : s.applyReset.units = s.units.map (fun _ => DecoderUnit.idle) := rfl
@[simp] theorem applyReset_answered : s.applyReset.answered = [] := rfl
@[simp] theorem applyReset_faults : s.applyReset.faults = [] := rfl

variable (b : Buffer) (queues : List (List Request)) (schedule : List Nat) (requests : List Request)

@[simp] theorem launch_buf : (State.launch b queues schedule).buf = b := rfl
@[simp] theorem launch_schedule : (State.launch b queues schedule).schedule = schedule := rfl
@[simp] theorem launch_answered : (State.launch b queues schedule).answered = [] := rfl
@[simp] theorem launch_faults : (State.launch b queues schedule).faults = [] := rfl
@[simp] theorem launch_units : (State.launch b queues schedule).units =
    queues.map (fun q => { DecoderUnit.idle with req := q }) := rfl
@[simp] theorem launch_outstanding : (State.launch b queues schedule).outstanding = queues.flatten := by
  simp [State.outstanding, List.flatMap_map, DecoderUnit.outstanding, DecoderUnit.idle]
@[simp] theorem allOnOneUnit_outstanding : (State.allOnOneUnit b requests).outstanding = requests := by
  simp [State.allOnOneUnit]

@[simp] theorem idle_req : DecoderUnit.idle.req = [] := rfl
@[simp] theorem idle_inProgress : DecoderUnit.idle.inProgress = none := rfl
@[simp] theorem idle_rsp : DecoderUnit.idle.rsp = [] := rfl
@[simp] theorem idle_outstanding : DecoderUnit.idle.outstanding = [] := rfl

end Sys2Proof.Machine
end

