-- ==== Sys2Proof/Laws/Step.lean ====
section
/-! SUPPORT. Once for each shared operation, everything it can do: the read primitive, finishing an operation, taking
a request, and one step. Later proofs cite these instead of unfolding the step. -/

namespace Sys2Proof.Machine

/-! ### Reading -/

theorem bufRead_inside (b : Buffer) (wa : Nat) (h : wa < b.words) : bufRead b wa = .ok (b.word wa) :=
  if_pos h

theorem bufRead_outside (b : Buffer) (wa : Nat) (h : b.words ≤ wa) :
    bufRead b wa = .error (.bufOutOfRange (BitVec.ofNat 35 wa)) :=
  if_neg (Nat.not_lt.2 h)

/-- The word address of any operation fits the 35 bits of a BUF address, with room for three more words. -/
theorem firstWord_fits (base index : Word) (k : Nat) (hk : k ≤ 4) : firstWord base index k + 5 ≤ 2 ^ 34 + 2 ^ 30 := by
  have hb := base.isLt
  have hi := index.isLt
  have hmul : index.toNat * k ≤ index.toNat * 4 := Nat.mul_le_mul_left _ hk
  unfold firstWord
  omega

/-! ### Finishing an operation -/

/-- An operation ends by delivering its response or by raising its fault, and in no other way. -/
theorem finish_cases (w : Request) (result : Except Fault Response) (s t : State)
    (h : s.finish w result = .next t) :
    (∃ r, result = .ok r ∧ t = s.deliver w r) ∨ (∃ f, result = .error f ∧ t = s.raise w f) := by
  cases result with
  | ok r => exact .inl ⟨r, rfl, (Host.Outcome.next.inj h).symm⟩
  | error f => exact .inr ⟨f, rfl, (Host.Outcome.next.inj h).symm⟩

/-- Every operation performs its pure function on the buffer and finishes with what it gives. -/
theorem exec_eq_finish (i : Instr) (s : State) : exec i s = s.finish (encode i) (resultOf s.buf i) := by
  cases i <;> rfl

/-- The request word of an operation that was decoded is the word it was decoded from. -/
theorem encode_of_decode (w : Request) (i : Instr) (h : decode w = .ok i) : encode i = w := by
  have glue : ∀ op : BitVec 3, requestOp w = op →
      (op ++ requestBase w ++ requestIndex w : BitVec (3 + 32 + 32)) = w := by
    rintro op rfl
    ext k hk
    simp only [requestOp, requestBase, requestIndex, BitVec.getElem_append, BitVec.getElem_extractLsb']
    split
    · simp [BitVec.getLsbD_eq_getElem hk]
    · split
      · rw [← BitVec.getLsbD_eq_getElem hk]; congr 1; omega
      · rw [← BitVec.getLsbD_eq_getElem hk]; congr 1; omega
  unfold decode at h
  split at h
  case h_6 => cases h
  all_goals
    next hop =>
    cases h
    exact glue _ (BitVec.eq_of_toNat_eq hop)

/-- A request that is taken is finished with its outcome. -/
theorem performRequest_eq_finish (w : Request) (s : State) :
    performRequest w s = s.finish w (outcomeOf s.buf w) := by
  unfold performRequest outcomeOf
  cases h : decode w with
  | ok i => simp only [exec_eq_finish, encode_of_decode w i h]
  | error why => rfl

/-! ### Taking a request -/

/-- Taking a request: the unit whose turn it is exists and has one outstanding; it becomes its request in progress. -/
theorem takeRequest_some (s t : State) (w : Request) (h : s.takeRequest = some (w, t)) :
    ∃ d rest, s.units[s.turn]? = some d ∧ d.outstanding = w :: rest ∧
      t = { s with
            units := s.units.set s.turn { d with inProgress := some w, req := rest }
            active := s.turn
            schedule := s.schedule.tail } := by
  unfold State.takeRequest at h
  split at h
  · cases h
  · next d hd =>
    split at h
    · cases h
    · next w' rest hw =>
      cases h
      exact ⟨d, rest, hd, hw, rfl⟩

/-- A step that takes nothing: the unit whose turn it is does not exist or has nothing outstanding. -/
theorem takeRequest_none (s : State) (h : s.takeRequest = none) :
    ∀ d, s.units[s.turn]? = some d → d.outstanding = [] := by
  intro d hd
  unfold State.takeRequest at h
  rw [hd] at h
  split at h
  · next h' => cases h'
  · next d' h' =>
    cases h'
    split at h
    · assumption
    · cases h

/-! ### One step -/

/-- Everything one step can do: wait, or take one request and deliver its response, or raise its fault. -/
theorem step_cases (s t : State) (h : step s = .next t) :
    (s.takeRequest = none ∧ t = s.wait) ∨
    (∃ w u r, s.takeRequest = some (w, u) ∧ outcomeOf u.buf w = .ok r ∧ t = u.deliver w r) ∨
    (∃ w u f, s.takeRequest = some (w, u) ∧ outcomeOf u.buf w = .error f ∧ t = u.raise w f) := by
  unfold step at h
  split at h
  · next hn => exact .inl ⟨hn, (Host.Outcome.next.inj h).symm⟩
  · next w u hu =>
    rw [performRequest_eq_finish] at h
    rcases finish_cases _ _ _ _ h with ⟨r, hr, rfl⟩ | ⟨f, hf, rfl⟩
    · exact .inr (.inl ⟨w, u, r, hu, hr, rfl⟩)
    · exact .inr (.inr ⟨w, u, f, hu, hf, rfl⟩)

/-- Running one more step, the first step first. -/
theorem runs_succ (k : Nat) (s u : State) : Runs (k + 1) s u ↔ ∃ t, step s = .next t ∧ Runs k t u := by
  have hcore : Sys2Proof.core.step s = step s := rfl
  unfold Runs
  simp only [Host.Core.run, hcore]
  cases hs : step s with
  | next t => simp
  | fault r => simp
  | refused r => simp

@[simp] theorem runs_zero (s u : State) : Runs 0 s u ↔ s = u := by
  unfold Runs
  exact ⟨Host.Outcome.next.inj, fun h => h ▸ rfl⟩

end Sys2Proof.Machine
end

