-- ==== Sys2Proof/Laws/Results.lean ====
section
/-! SUPPORT. Once for each operation, everything its pure function can give: its vector where all its words are in the
buffer, and the fault at the lowest out-of-range address where one is not. -/

namespace Sys2Proof.Machine

theorem strideOf_pos (i : Instr) : 0 < strideOf i := by cases i <;> simp [strideOf]

theorem strideOf_le (i : Instr) : strideOf i ≤ 4 := by cases i <;> simp [strideOf]

/-- The addresses of an operation leave room in the 35 bits of a word address. -/
theorem firstWordOf_fits (i : Instr) : firstWordOf i + 5 ≤ 2 ^ 34 + 2 ^ 30 :=
  firstWord_fits i.base i.index (strideOf i) (strideOf_le i)

theorem mem_wordsRead (i : Instr) (wa : Nat) :
    wa ∈ wordsRead i ↔ firstWordOf i ≤ wa ∧ wa < firstWordOf i + strideOf i := by
  simp only [wordsRead, List.mem_map, List.mem_range]
  exact ⟨by rintro ⟨j, hj, rfl⟩; omega, fun h => ⟨wa - firstWordOf i, by omega, by omega⟩⟩

/-! ### All words in the buffer -/

theorem vec2F32_inside (b : Buffer) (base index : Word) (h : firstWord base index 2 + 1 < b.words) :
    vec2F32 b base index =
      .ok (.vecF32 [b.word (firstWord base index 2), b.word (firstWord base index 2 + 1)]) := by
  simp only [vec2F32]
  rw [bufRead_inside _ _ (by omega), bufRead_inside _ _ h]
  rfl

theorem vec3F32_inside (b : Buffer) (base index : Word) (h : firstWord base index 3 + 2 < b.words) :
    vec3F32 b base index =
      .ok (.vecF32 [b.word (firstWord base index 3), b.word (firstWord base index 3 + 1),
        b.word (firstWord base index 3 + 2)]) := by
  simp only [vec3F32]
  rw [bufRead_inside _ _ (by omega), bufRead_inside _ _ (by omega), bufRead_inside _ _ h]
  rfl

theorem vec4F32_inside (b : Buffer) (base index : Word) (h : firstWord base index 4 + 3 < b.words) :
    vec4F32 b base index =
      .ok (.vecF32 [b.word (firstWord base index 4), b.word (firstWord base index 4 + 1),
        b.word (firstWord base index 4 + 2), b.word (firstWord base index 4 + 3)]) := by
  simp only [vec4F32]
  rw [bufRead_inside _ _ (by omega), bufRead_inside _ _ (by omega), bufRead_inside _ _ (by omega),
    bufRead_inside _ _ h]
  rfl

theorem vec4U16_inside (b : Buffer) (base index : Word) (h : firstWord base index 2 + 1 < b.words) :
    vec4U16 b base index =
      .ok (.vecU32 [lo16 (b.word (firstWord base index 2)), hi16 (b.word (firstWord base index 2)),
        lo16 (b.word (firstWord base index 2 + 1)), hi16 (b.word (firstWord base index 2 + 1))]) := by
  simp only [vec4U16]
  rw [bufRead_inside _ _ (by omega), bufRead_inside _ _ h]
  rfl

theorem vec4U8Unorm_inside (b : Buffer) (base index : Word) (h : firstWord base index 1 < b.words) :
    vec4U8Unorm b base index =
      .ok (.vecF32 [unorm (byteOf (b.word (firstWord base index 1)) 0),
        unorm (byteOf (b.word (firstWord base index 1)) 1), unorm (byteOf (b.word (firstWord base index 1)) 2),
        unorm (byteOf (b.word (firstWord base index 1)) 3)]) := by
  simp only [vec4U8Unorm]
  rw [bufRead_inside _ _ h]
  rfl

/-- In range every operation has a response. -/
theorem resultOf_inside (b : Buffer) (i : Instr) (h : firstWordOf i + strideOf i ≤ b.words) :
    ∃ r, resultOf b i = .ok r := by
  cases i with
  | decodeVec2F32 base index => exact ⟨_, vec2F32_inside b base index h⟩
  | decodeVec3F32 base index => exact ⟨_, vec3F32_inside b base index h⟩
  | decodeVec4F32 base index => exact ⟨_, vec4F32_inside b base index h⟩
  | decodeVec4U16 base index => exact ⟨_, vec4U16_inside b base index h⟩
  | decodeVec4U8Unorm base index => exact ⟨_, vec4U8Unorm_inside b base index h⟩

/-! ### A word out of range -/

/-- The reads of an operation stop at the first one out of range. -/
theorem resultOf_outside (b : Buffer) (i : Instr) (h : b.words < firstWordOf i + strideOf i) :
    resultOf b i = .error (.bufOutOfRange (BitVec.ofNat 35 (max (firstWordOf i) b.words))) := by
  by_cases h0 : b.words ≤ firstWordOf i
  · rw [max_eq_left h0]
    cases i <;> simp only [firstWordOf, strideOf, Instr.base, Instr.index] at h0 <;>
      simp only [resultOf, vec2F32, vec3F32, vec4F32, vec4U16, vec4U8Unorm] <;>
      rw [bufRead_outside _ _ h0] <;> rfl
  · obtain ⟨k, hk⟩ : ∃ k, b.words = firstWordOf i + k := ⟨b.words - firstWordOf i, by omega⟩
    rw [max_eq_right (by omega), hk]
    have hk4 : k = 1 ∨ k = 2 ∨ k = 3 := by have := strideOf_le i; omega
    cases i <;> simp only [firstWordOf, strideOf, Instr.base, Instr.index] at h hk ⊢ <;>
      simp only [resultOf, vec2F32, vec3F32, vec4F32, vec4U16, vec4U8Unorm] <;>
      rcases hk4 with rfl | rfl | rfl <;>
      first
      | omega
      | (rw [bufRead_inside _ _ (by omega), bufRead_outside _ _ (by omega)]; rfl)
      | (rw [bufRead_inside _ _ (by omega), bufRead_inside _ _ (by omega), bufRead_outside _ _ (by omega)]; rfl)
      | (rw [bufRead_inside _ _ (by omega), bufRead_inside _ _ (by omega), bufRead_inside _ _ (by omega),
          bufRead_outside _ _ (by omega)]; rfl)

end Sys2Proof.Machine
end

