-- ==== Sys2Proof/Laws/Runs.lean ====
section
/-! SUPPORT. What one step serves, said once in terms of the units' queues; the induction over runs, packaged once; and
how serving one request changes the multiset of outstanding requests. -/

namespace Sys2Proof.Machine

/-- A relation that holds of every state with itself and that a first step extends holds along every run. -/
theorem runs_induction (P : State → State → Prop) (here : ∀ s, P s s)
    (first : ∀ s t u, step s = .next t → P t u → P s u) : ∀ k s t, Runs k s t → P s t := by
  intro k
  induction k with
  | zero => intro s t h; exact (runs_zero s t).1 h ▸ here s
  | succ k ih =>
    intro s t h
    obtain ⟨u, hu, hr⟩ := (runs_succ k s t).1 h
    exact first s u t hu (ih u t hr)

/-- What a unit serves: either the step waits, or the unit whose turn it is serves the front of its queue, to its RSP
and the responses of the run, or to the fault record. -/
theorem step_serves (s t : State) (h : step s = .next t) :
    (t = s.wait ∧ ∀ d, s.units[s.turn]? = some d → d.outstanding = []) ∨
    ∃ w d e, s.units[s.turn]? = some d ∧ d.outstanding = w :: e.outstanding ∧ e.inProgress = none ∧
      t.units = s.units.set s.turn e ∧ t.schedule = s.schedule.tail ∧ t.buf = s.buf ∧
      ((∃ r, outcomeOf s.buf w = .ok r ∧ e.rsp = d.rsp ++ [r] ∧
          t.answered = s.answered ++ [(w, r)] ∧ t.faults = s.faults) ∨
       (∃ f, outcomeOf s.buf w = .error f ∧ e.rsp = d.rsp ∧
          t.answered = s.answered ∧ t.faults = s.faults ++ [⟨w, f⟩])) := by
  have set_modify : ∀ (us : List DecoderUnit) (n : Nat) (d : DecoderUnit) (f : DecoderUnit → DecoderUnit),
      (us.set n d).modify n f = us.set n (f d) := by
    intro us n d f
    apply List.ext_getElem?
    intro k
    simp only [List.getElem?_modify, List.getElem?_set]
    by_cases hk : n = k
    · subst hk; simp
    · simp [hk]
  rcases step_cases s t h with ⟨hn, rfl⟩ | ⟨w, v, r, hv, ho, rfl⟩ | ⟨w, v, f, hv, ho, rfl⟩
  · exact .inl ⟨rfl, takeRequest_none s hn⟩
  · obtain ⟨d, rest, h1, h2, rfl⟩ := takeRequest_some s v w hv
    exact .inr ⟨w, d, { req := rest, inProgress := none, rsp := d.rsp ++ [r] }, h1, h2, rfl,
      set_modify _ _ _ _, rfl, rfl, .inl ⟨r, ho, rfl, rfl, rfl⟩⟩
  · obtain ⟨d, rest, h1, h2, rfl⟩ := takeRequest_some s v w hv
    exact .inr ⟨w, d, { req := rest, inProgress := none, rsp := d.rsp }, h1, h2, rfl,
      set_modify _ _ _ _, rfl, rfl, .inr ⟨f, ho, rfl, rfl, rfl⟩⟩

/-- Serving the front request of one unit takes just that request out of the outstanding ones. -/
theorem outstanding_set (us : List DecoderUnit) (n : Nat) (d e : DecoderUnit) (w : Request) (h : us[n]? = some d)
    (hd : d.outstanding = w :: e.outstanding) :
    (us.flatMap DecoderUnit.outstanding).Perm (w :: (us.set n e).flatMap DecoderUnit.outstanding) := by
  induction us generalizing n with
  | nil => simp at h
  | cons a us ih =>
    cases n with
    | zero => simp only [List.getElem?_cons_zero, Option.some.injEq] at h; subst h; simp [hd]
    | succ n =>
      simp only [List.getElem?_cons_succ] at h
      simp only [List.set_cons_succ, List.flatMap_cons]
      exact ((ih n h).append_left _).trans List.perm_middle

/-! ### The determinism test (R132) -/

theorem runToEnd_eq_next (s t : State) :
    s.runToEnd = .next t ↔ Runs (s.schedule.length + s.outstanding.length) s t := Iff.rfl

theorem sameResponses_iff (s t : State) : sameResponses s t = true ↔
    Ended s ∧ Ended t ∧ s.answered.Perm t.answered ∧ s.faults.Perm t.faults := by
  simp [sameResponses, Ended, List.isPerm_iff, and_assoc]

theorem repeatsAgree_iff (s : State) :
    repeatsAgree s = true ↔ ∀ p ∈ s.answered, ∀ q ∈ s.answered, p.1 = q.1 → p.2 = q.2 := by
  simp only [repeatsAgree, List.all_eq_true, decide_eq_true_eq]

/-- The test passes when both runs reach ends that agree. -/
theorem determinismTest_of_runs (b : Buffer) (requests : List Request) (queues : List (List Request))
    (schedule : List Nat) (s t : State) (hs : (State.allOnOneUnit b requests).runToEnd = .next s)
    (ht : (State.launch b queues schedule).runToEnd = .next t) :
    determinismTest b requests queues schedule = (sameResponses s t && repeatsAgree s && repeatsAgree t) := by
  simp only [determinismTest, hs, ht]

end Sys2Proof.Machine
end

