-- ==== Sys2Proof/Tests/Slice0.lean ====
section
/-! SUPPORT. The model's own tests: words of the spec's encodings through the decoder, one step for each vector chosen
from spec/95_test_vectors.md (the expected results are that file's), the table and the assembler, and for every statement with hypotheses a
concrete state and operands that meet them. -/

namespace Sys2Proof.Tests

open Sys2Proof.Machine

/-! ### Helpers -/

/-- The first eight words of the test buffer TB of 95_test_vectors.md: 1.0 to 8.0. -/
def floats : Buffer :=
  Buffer.ofWords [0x3F800000, 0x40000000, 0x40400000, 0x40800000, 0x40A00000, 0x40C00000, 0x40E00000, 0x41000000]

/-- Words 8 to 11 of TB, the halfword cases. -/
def halves : Buffer := Buffer.ofWords [0x12345678, 0x9ABCDEF0, 0xFFFF0000, 0x0000FFFF]

/-- Words 12 to 15 of TB: the byte cases and a quiet NaN. -/
def bytes : Buffer := Buffer.ofWords [0x000000FF, 0xFF000000, 0x80FF7F01, 0x7FC00001]

/-- One unit with the given requests on its REQ. -/
def oneUnit (b : Buffer) (requests : List Request) : State := State.launch b [requests] []

/-- Two units with a request each, unit 1 first. -/
def twoUnits (b : Buffer) (r0 r1 : Request) : State := State.launch b [[r0], [r1]] [1]

/-- The next state of an outcome, or the given state where there is none. -/
def nextOr (s : State) : Host.Outcome State Fault Refusal → State
  | .next t => t
  | _ => s

/-- The state after one step. -/
def after (s : State) : State := nextOr s (step s)

/-- What a request gives in one step of one unit: the responses on its RSP and the fault record. -/
def given (b : Buffer) (w : Request) : List Response × List Fault :=
  let t := after (oneUnit b [w])
  (t.units.flatMap DecoderUnit.rsp, t.faults.map FaultEntry.fault)

/-! ### Well-formedness (R54, R55) -/

theorem test_wellFormed_op4 : wellFormedRequest 0x4FFFFFFFFFFFFFFFF = true := by decide

theorem test_illFormed_op5_refused : wellFormedRequest 0x50000000000000000 = false := by decide

theorem test_illFormed_op7_refused : wellFormedRequest 0x7FFFFFFFFFFFFFFFF = false := by decide

/-! ### Decoding words written out from R50, R51 and the table of 30_encoding.md section 7 -/

/-- op 000, base 36 = 0x24, index 1 (P1 request 2). -/
theorem test_decode_vec2_f32_word :
    decode (0b000#3 ++ 0x00000024#32 ++ 0x00000001#32) = .ok (.decodeVec2F32 36 1) := by decide

/-- op 001, base 12, index 5 (R64's example). -/
theorem test_decode_vec3_f32_word : decode 0x10000000C00000005#67 = .ok (.decodeVec3F32 12 5) := by decide

/-- op 010, base 64, index 1. -/
theorem test_decode_vec4_f32_word :
    decode (0b010#3 ++ 0x00000040#32 ++ 0x00000001#32) = .ok (.decodeVec4F32 64 1) := by decide

/-- op 011, base 72, index 2 (P3 request 2). -/
theorem test_decode_vec4_u16_word : decode 0x30000004800000002#67 = .ok (.decodeVec4U16 72 2) := by decide

/-- op 100, base 0, index 0xFFFFFFFF (V4, the largest index). -/
theorem test_decode_vec4_u8_unorm_word :
    decode 0x400000000FFFFFFFF#67 = .ok (.decodeVec4U8Unorm 0 0xFFFFFFFF) := by decide

theorem test_decode_reserved_6 : decode 0x60000000000000000#67 = .error (.reservedOp 6) := by decide

/-- A table word of 72 bits (67 rounded up to bytes) reads as its 67-bit request. -/
theorem test_table_word : decodeTableWord 72 0x10000000C00000005 = some (.decodeVec3F32 12 5) := by decide

/-- A reserved table word is no instruction. -/
theorem test_table_word_reserved : decodeTableWord 72 0x50000000000000000 = none := by decide

/-! ### One step on the vectors of 95_test_vectors.md -/

/-- V1 and S8: stride 2. -/
theorem test_vec2_f32_stride :
    given floats 0x00000000000000001 = ([.vecF32 [0x40400000, 0x40800000]], []) := by decide

/-- V1 (one past the end; the whole operation faults although its first word is in range). -/
theorem test_vec2_f32_half_out_of_range :
    given floats 0x00000001C00000000 = ([], [.bufOutOfRange 8]) := by decide

/-- V1: a base of 7 acts as 4. -/
theorem test_vec3_f32_misaligned :
    given floats 0x10000000700000001 = ([.vecF32 [0x40A00000, 0x40C00000, 0x40E00000]], []) := by decide

/-- S7: the source's own example. -/
theorem test_vec3_f32_source_example :
    given floats 0x10000000000000000 = ([.vecF32 [0x3F800000, 0x40000000, 0x40400000]], []) := by decide

/-- V2: stride 4. -/
theorem test_vec4_f32_stride : given floats 0x20000000000000001 =
    ([.vecF32 [0x40A00000, 0x40C00000, 0x40E00000, 0x41000000]], []) := by decide

/-- V2: the largest address of the block does not wrap. -/
theorem test_vec4_f32_no_wrap :
    given floats 0x2FFFFFFFFFFFFFFFF = ([], [.bufOutOfRange 18253611003]) := by decide

/-- V3: low halfword first, top-bit-set halfwords stay positive. -/
theorem test_vec4_u16_order :
    given halves 0x30000000000000000 = ([.vecU32 [0x5678, 0x1234, 0xDEF0, 0x9ABC]], []) := by decide

/-- V3: no sign extension; a base of 3 acts as 0. -/
theorem test_vec4_u16_extremes :
    given halves 0x30000000300000001 = ([.vecU32 [0x0000, 0xFFFF, 0xFFFF, 0x0000]], []) := by decide

/-- V4, S6: component 0 is the low byte. -/
theorem test_unorm_byte_order : given bytes 0x40000000000000000 =
    ([.vecF32 [0x3F800000, 0x00000000, 0x00000000, 0x00000000]], []) := by decide

/-- V4: 1/255, 127/255, 1.0, 128/255. -/
theorem test_unorm_values : given bytes 0x40000000000000002 =
    ([.vecF32 [0x3B808081, 0x3EFEFEFF, 0x3F800000, 0x3F008081]], []) := by decide

/-- V5: a reserved op code makes no read although word 0 exists. -/
theorem test_reserved_op_faults : given floats 0x50000000000000000 = ([], [.illegalOp 5]) := by decide

/-- The request placed for the next step is performed by it; from reset its first word is out of range (R120). -/
theorem test_placed_request_from_reset :
    (after (State.reset.withFetchWord 72 0x10000000C00000005)).faults =
      [{ request := 0x10000000C00000005, fault := .bufOutOfRange 18 }] := by decide

/-- A run of two units: unit 1 moves first, as the schedule says, and answers on its own RSP. -/
theorem test_unit_answers_on_its_own_rsp :
    (after (twoUnits floats 0x00000000000000000 0x00000000000000001)).units.map DecoderUnit.rsp =
      [[], [.vecF32 [0x40400000, 0x40800000]]] := by decide

/-- A producer's append while a request is outstanding is no move of the model (U6). -/
theorem test_append_refused_during_run :
    (oneUnit floats [0x00000000000000000]).appendWord 5 = .refused .bufferFrozen := by rfl

/-! ### The table and the assembler -/

/-- V7: spot values of UNORM. -/
theorem test_unorm_spot_values : unorm 51 = 0x3E4CCCCD ∧ unorm 85 = 0x3EAAAAAB ∧ unorm 153 = 0x3F19999A ∧
    unorm 170 = 0x3F2AAAAB ∧ unorm 204 = 0x3F4CCCCD ∧ unorm 254 = 0x3F7EFEFF := by decide

/-- V7, from the table. -/
theorem test_table_spot_values : unormTable 3 = 0x3C40C0C1 ∧ unormTable 128 = 0x3F008081 := by decide +kernel

/-- R88: the table has an entry for every byte. -/
theorem test_table_length : unormRom.length = 256 := by decide +kernel

/-- R64's example line, with a comment. -/
theorem test_parse_example_line :
    parseRequest "decode_vec3_f32 12, 5  ; position".toList = some (.decodeVec3F32 12 5) := by decide

theorem test_parse_hexadecimal_operands :
    parseRequest "decode_vec4_u8_unorm 0x30, 0xF".toList = some (.decodeVec4U8Unorm 48 15) := by decide

/-- An operand of 2^32 is not written in 32 bits (R64). -/
theorem test_parse_refuses_wide_operand : parseRequest "decode_vec2_f32 4294967296, 0".toList = none := by decide

theorem test_write_fault : faultText (.bufOutOfRange 24) = "-> fault BufOutOfRange(24)".toList := by decide

theorem test_write_unsigned_result :
    responseText (.vecU32 [4, 5, 65535, 32768]) = "-> (4, 5, 65535, 32768)".toList := by decide

/-- The binary32 classes of the special words of TB (95_test_vectors.md, G1). -/
theorem test_f32_classes : [0x7FC00001, 0xFF800001, 0x7F800000, 0x00000001, 0x80000000, 0x3F800000].map f32Class =
    [.quietNaN, .signallingNaN, .infinity, .subnormal, .zero, .normal] := by decide

/-! ### The determinism test of R132 on program P3 -/

/-- The buffer MB of 95_test_vectors.md section 3: positions, uv, colours, joints, weights. -/
def meshBuffer : Buffer := Buffer.ofWords (
  [0xBF800000, 0xBF800000, 0x00000000, 0x3F800000, 0xBF800000, 0x00000000, 0x00000000, 0x3FC00000, 0x3E800000] ++
  [0x00000000, 0x00000000, 0x3F800000, 0x00000000, 0x3F000000, 0x3F800000] ++
  [0xFF0000FF, 0xFF00FF00, 0x80FF8033] ++
  [0x00010000, 0x00030002, 0x00050004, 0x8000FFFF, 0x03040102, 0x00010000] ++
  [0x3F800000, 0x00000000, 0x00000000, 0x00000000, 0x3F000000, 0x3F000000, 0x00000000, 0x00000000] ++
  [0x3E800000, 0x3E800000, 0x3E800000, 0x3E800000])

/-- The seven requests of P3 in issue order. -/
def p3Requests : List Request :=
  [0x40000003C00000002, 0x30000004800000002, 0x00000002400000002, 0x20000006000000002, 0x40000003C00000002,
    0x00000000000000004, 0x30000002400000002]

/-- Schedule B's assignment: unit 0 takes 7, 4, 1; unit 1 takes 5, 2; unit 2 takes 6, 3. -/
def p3Spread : List (List Request) :=
  [[0x30000002400000002, 0x20000006000000002, 0x40000003C00000002], [0x40000003C00000002, 0x30000004800000002],
    [0x00000000000000004, 0x00000002400000002]]

/-- The seven responses of P3's table, in issue order. -/
def p3Responses : List Response :=
  [.vecF32 [0x3E4CCCCD, 0x3F008081, 0x3F800000, 0x3F008081], .vecU32 [258, 772, 0, 1],
    .vecF32 [0x3F000000, 0x3F800000], .vecF32 [0x3E800000, 0x3E800000, 0x3E800000, 0x3E800000],
    .vecF32 [0x3E4CCCCD, 0x3F008081, 0x3F800000, 0x3F008081], .vecF32 [0x3E800000, 0x00000000],
    .vecU32 [0x0000, 0x3F00, 0x0000, 0x3F80]]

/-- Schedule A: one unit, order 1 to 7. -/
def scheduleA : State := State.allOnOneUnit meshBuffer p3Requests

/-- Schedule B, interleaved as 6, 7, 5, 4, 3, 2, 1. -/
def scheduleB : State := State.launch meshBuffer p3Spread [2, 0, 1, 0, 2, 1, 0]

/-- The state at the end of a run. -/
def atEnd (s : State) : State := nextOr s s.runToEnd

/-- P3 under schedule A: the table's responses in issue order, and an empty fault record. -/
theorem test_p3_schedule_a :
    (atEnd scheduleA).answered = p3Requests.zip p3Responses ∧ (atEnd scheduleA).faults = [] := by decide +kernel

/-- P3 under schedule B: each unit's RSP in the order of its own requests, delivered 6, 7, 5, 4, 3, 2, 1. -/
theorem test_p3_schedule_b :
    (atEnd scheduleB).units.map DecoderUnit.rsp =
      [[.vecU32 [0, 16128, 0, 16256], .vecF32 [0x3E800000, 0x3E800000, 0x3E800000, 0x3E800000],
          .vecF32 [0x3E4CCCCD, 0x3F008081, 0x3F800000, 0x3F008081]],
        [.vecF32 [0x3E4CCCCD, 0x3F008081, 0x3F800000, 0x3F008081], .vecU32 [258, 772, 0, 1]],
        [.vecF32 [0x3E800000, 0x00000000], .vecF32 [0x3F000000, 0x3F800000]]] ∧
    (atEnd scheduleB).answered.map Prod.fst =
      [0x00000000000000004, 0x30000002400000002, 0x40000003C00000002, 0x20000006000000002, 0x00000002400000002,
        0x30000004800000002, 0x40000003C00000002] ∧
    (atEnd scheduleB).faults = [] := by decide +kernel

/-- R132: P3 all on one unit against schedule B in two interleavings, bit for bit the same. -/
theorem test_p3_determinism :
    determinismTest meshBuffer p3Requests p3Spread [2, 0, 1, 0, 2, 1, 0] = true ∧
    determinismTest meshBuffer p3Requests p3Spread [0, 0, 0, 1, 1, 2, 2] = true := by decide +kernel

/-- The comparison can fail: with request 1 replaced by request 2 in the second set it does. -/
theorem test_determinism_tells_sets_apart :
    determinismTest meshBuffer [0x40000003C00000002] [[0x30000004800000002]] [] = false := by decide +kernel

/-! ### The hypotheses of the statements can be met, each clause at a boundary -/

/-- A state in which unit 0 performs a request whose words end exactly at the buffer's end, or one past it. -/
def eight : State := oneUnit floats [0x00000000000000000]

/-- A state in the middle of an operation: unit 0 has taken its request. -/
def busy : State := { eight with units := [{ req := [], inProgress := some 0x00000000000000000, rsp := [] }] }

theorem witness_EncodedInstructionDecodesToItself : (Instr.decodeVec4U8Unorm 0xFFFFFFFF 0xFFFFFFFF).wellFormed = true := rfl

theorem witness_EveryWordDecodesByItsOpFieldAlone :
    ((0x4FFFFFFFFFFFFFFFF#67 : Request).extractLsb' 64 3).toNat ≤ 4 ∧
    5 ≤ ((0x50000000000000000#67 : Request).extractLsb' 64 3).toNat ∧
    decode 0x4FFFFFFFFFFFFFFFF#67 = .ok (.decodeVec4U8Unorm 0xFFFFFFFF 0xFFFFFFFF) := by decide

theorem witness_ResultKindAndCountFollowTheOpCode :
    (∃ r, resultOf floats (.decodeVec2F32 0 3) = .ok r) ∧ (∃ r, resultOf floats (.decodeVec3F32 0 1) = .ok r) ∧
    (∃ r, resultOf floats (.decodeVec4F32 0 1) = .ok r) ∧ (∃ r, resultOf floats (.decodeVec4U16 0 3) = .ok r) ∧
    (∃ r, resultOf floats (.decodeVec4U8Unorm 0 7) = .ok r) :=
  ⟨⟨_, rfl⟩, ⟨_, rfl⟩, ⟨_, rfl⟩, ⟨_, rfl⟩, ⟨_, rfl⟩⟩

/-- Lane 2 of a two-component result is a spare one. -/
theorem witness_BusCarriesTheComponentsWhateverTheSpareLanes :
    (∃ r, resultOf floats (.decodeVec2F32 0 0) = .ok r) ∧ componentsOf (.decodeVec2F32 0 0) ≤ 2 ∧ 2 < 4 :=
  ⟨⟨_, rfl⟩, by decide⟩

theorem witness_BufReadReturnsTheWordOrFaults :
    7 < floats.words ∧ floats.words ≤ 8 ∧ 8 < 2 ^ 35 ∧ floats.words ≤ 2 ^ 35 - 1 := by decide

theorem witness_AppendedWordsAreTheBuffer : 1 < [(5 : Word), 6].length := by decide

/-- The last pair in range, and the pair of which only the first word is in range. -/
theorem witness_DecodeVec2F32DeliversTwoWordsOrFaults :
    (24#32).toNat / 4 + (0#32).toNat * 2 + 1 < eight.buf.words ∧
    eight.buf.words ≤ (28#32).toNat / 4 + (0#32).toNat * 2 + 1 := by decide

theorem witness_DecodeVec3F32DeliversThreeWordsOrFaults :
    (20#32).toNat / 4 + (0#32).toNat * 3 + 2 < eight.buf.words ∧
    eight.buf.words ≤ (0#32).toNat / 4 + (2#32).toNat * 3 + 2 := by decide

theorem witness_DecodeVec4F32DeliversFourWordsOrFaults :
    (0#32).toNat / 4 + (1#32).toNat * 4 + 3 < eight.buf.words ∧
    eight.buf.words ≤ (20#32).toNat / 4 + (0#32).toNat * 4 + 3 := by decide

theorem witness_DecodeVec4U16DeliversFourHalfwordsOrFaults :
    (24#32).toNat / 4 + (0#32).toNat * 2 + 1 < eight.buf.words ∧
    eight.buf.words ≤ (0#32).toNat / 4 + (4#32).toNat * 2 + 1 := by decide

theorem witness_DecodeVec4U8UnormDeliversFourBytesOrFaults :
    (28#32).toNat / 4 + (0#32).toNat < eight.buf.words ∧ eight.buf.words ≤ (32#32).toNat / 4 + (0#32).toNat := by decide

/-- The last element of each kind in an eight-word buffer, with an aligned base. -/
theorem witness_FloatDecodesRoundTripTheProducedWords :
    4 * 2 < 2 ^ 32 ∧ 2 + (2#32).toNat * 2 + 2 ≤ (List.replicate 8 (1 : Word)).length ∧
    2 + (1#32).toNat * 3 + 3 ≤ (List.replicate 8 (1 : Word)).length ∧
    0 + (1#32).toNat * 4 + 4 ≤ (List.replicate 8 (1 : Word)).length := by decide

/-- R75's own example: `decode_vec2_f32 b, 2*i` and `decode_vec4_f32 b, i`. -/
theorem witness_FloatDecodesAgreeOnCommonLanes :
    (Instr.decodeVec2F32 0 2).opcode.toNat ≤ 2 ∧ (Instr.decodeVec4F32 0 1).opcode.toNat ≤ 2 ∧
    firstWordOf (.decodeVec2F32 0 2) = firstWordOf (.decodeVec4F32 0 1) ∧
    (∃ r, resultOf floats (.decodeVec2F32 0 2) = .ok r) ∧ (∃ r, resultOf floats (.decodeVec4F32 0 1) = .ok r) ∧
    1 < strideOf (.decodeVec2F32 0 2) ∧ 1 < strideOf (.decodeVec4F32 0 1) :=
  ⟨by decide, by decide, by decide, ⟨_, rfl⟩, ⟨_, rfl⟩, by decide, by decide⟩

theorem witness_PackedHalfwordsLoseNoBit : (0#32).toNat / 4 + (3#32).toNat * 2 + 1 < floats.words ∧ 3 < 4 := by decide

theorem witness_BytesAreTakenLowToHigh : 3 < 4 ∧ ∃ r, resultOf floats (.decodeVec4U8Unorm 0 7) = .ok r :=
  ⟨by decide, _, rfl⟩

/-- The largest finite pattern, and a pattern as near as `UNORM(b)` itself: its own. -/
theorem witness_UnormIsTheNearestBinary32 : f32Finite 0x7F7FFFFF = true ∧ f32Finite (unorm 3) = true ∧
    |255 * f32Units (unorm 3) - ((3 : Byte).toNat : Int) * 2 ^ 149| =
      |255 * f32Units (unorm 3) - ((3 : Byte).toNat : Int) * 2 ^ 149| := ⟨by decide, by decide, rfl⟩

theorem witness_UnormAlgorithmIsNormalised : (1 ≤ 1 ∧ 1 ≤ 255) ∧ (1 ≤ 255 ∧ 255 ≤ 255) ∧ 255 ≤ 1 * 2 ^ 8 := by decide

theorem witness_UnormHasTheNamedProperties :
    1 ≤ (1 : Byte).toNat ∧ (254 : Byte).toNat ≤ 254 ∧ (254 : Byte).toNat < (255 : Byte).toNat ∧ (1 : Byte) ≠ 0 ∧
    unorm 7 = unorm 7 := by decide

theorem witness_DeliveredResponseGoesToTheActiveUnit :
    (∃ d, busy.units[busy.active]? = some d) ∧ 1 ≠ busy.active := ⟨⟨_, rfl⟩, by decide⟩

theorem witness_RaisedFaultIsRecordedForTheWholeRun :
    (∃ d, busy.units[busy.active]? = some d) ∧ 1 ≠ busy.active ∧ Runs 1 eight (after eight) :=
  ⟨⟨_, rfl⟩, by decide, rfl⟩

theorem witness_ReservedOpRaisesIllegalOp :
    5 ≤ ((0x50000000000000000#67 : Request).extractLsb' 64 3).toNat ∧
    5 ≤ ((0x70000003000000001#67 : Request).extractLsb' 64 3).toNat := by decide

/-- All words in range at the very end; one word too many; all words out of range. -/
theorem witness_OutOfRangeRecordsTheLowestAddress :
    firstWordOf (.decodeVec4F32 0 1) + strideOf (.decodeVec4F32 0 1) ≤ eight.buf.words ∧
    eight.buf.words < firstWordOf (.decodeVec4F32 4 1) + strideOf (.decodeVec4F32 4 1) ∧
    eight.buf.words < firstWordOf (.decodeVec4F32 0 2) + strideOf (.decodeVec4F32 0 2) := by decide

theorem witness_FaultPriorityIsOpThenLowestAddress :
    (∃ t, performRequest 0x50000000000000000 busy = .next t) ∧
    5 ≤ ((0x50000000000000000#67 : Request).extractLsb' 64 3).toNat ∧
    decode 0x20000001300000001#67 = .ok (.decodeVec4F32 19 1) ∧
    (∃ t, performRequest 0x20000001300000001 busy = .next t ∧
      t.faults = busy.faults ++ [⟨0x20000001300000001, .bufOutOfRange 8⟩]) :=
  ⟨⟨_, rfl⟩, by decide, by decide, ⟨_, rfl, by decide⟩⟩

theorem witness_EmptyBufferFaultsEveryRequest : State.reset.buf.words = 0 := rfl

/-- Two buffers that differ only outside the words read. -/
theorem witness_ResponseDependsOnTheWordsReadAlone :
    ∀ wa ∈ wordsRead (.decodeVec2F32 0 0), wa < (oneUnit (Buffer.ofWords [1, 2, 3]) []).buf.words ∧
      wa < (oneUnit (Buffer.ofWords [1, 2]) []).buf.words ∧
      (oneUnit (Buffer.ofWords [1, 2, 3]) []).buf.word wa = (oneUnit (Buffer.ofWords [1, 2]) []).buf.word wa := by decide

theorem witness_OperationFrame :
    (∃ t, exec (.decodeVec2F32 0 0) busy = .next t) ∧ (∃ t, exec (.decodeVec3F32 0 9) busy = .next t) ∧
    (∃ t, exec (.decodeVec4F32 0 0) busy = .next t) ∧ (∃ t, exec (.decodeVec4U16 0 0) busy = .next t) ∧
    (∃ t, exec (.decodeVec4U8Unorm 0 0) busy = .next t) ∧ 1 ≠ busy.active ∧
    (∃ d, busy.units[busy.active]? = some d) :=
  ⟨⟨_, rfl⟩, ⟨_, rfl⟩, ⟨_, rfl⟩, ⟨_, rfl⟩, ⟨_, rfl⟩, by decide, ⟨_, rfl⟩⟩

theorem witness_StepPerformsTheDecodedRequest :
    (∃ d, eight.units[eight.turn]? = some d ∧ d.outstanding = [0x00000000000000000]) ∧
    decode 0x00000000000000000#67 = .ok (.decodeVec2F32 0 0) ∧
    (∃ d, (oneUnit floats [0x70000000000000000, 1]).units[0]? = some d ∧ d.outstanding = [0x70000000000000000, 1]) ∧
    (oneUnit floats [0x70000000000000000, 1]).turn = 0 ∧
    decode 0x70000000000000000#67 = .error (.reservedOp 7) :=
  ⟨⟨_, rfl, rfl⟩, by decide, ⟨_, rfl, rfl⟩, by decide, by decide⟩

/-- No unit has a request, and a schedule that names a unit without one. -/
theorem witness_UnitWithoutARequestWaits :
    (∀ d, State.reset.units[State.reset.turn]? = some d → d.outstanding = []) ∧
    (∀ d, (State.launch floats [[], [1]] [0]).units[(State.launch floats [[], [1]] [0]).turn]? = some d →
      d.outstanding = []) := by
  constructor
  · intro d h; cases h
  · intro d h; cases h; rfl

theorem witness_PlacedRequestIsPerformedNext :
    decodeTableWord 72 0x40000003000000001 = some (.decodeVec4U8Unorm 48 1) := by decide

theorem witness_BufferIsFrozenDuringARun : Runs 1 eight (after eight) := rfl

/-- The launch state meets the invariant, and a step of it answers. -/
theorem witness_StepKeepsTheInvariant : Inv eight ∧ ∃ t, step eight = .next t :=
  ⟨⟨by decide, by decide, by decide, by decide, by decide⟩, ⟨_, rfl⟩⟩

theorem witness_ResetAndLaunchMeetTheInvariant : [[(0 : Request)]] ≠ [] := by decide

/-- P3 under schedules A and B, both runs at their ends; A starts with request 1, B with request 6. -/
theorem witness_EveryScheduleGivesTheSameResponses :
    scheduleA.buf = scheduleB.buf ∧ scheduleA.outstanding.Perm scheduleB.outstanding ∧
    scheduleA.answered = [] ∧ scheduleB.answered = [] ∧ scheduleA.faults = [] ∧ scheduleB.faults = [] ∧
    ∃ s t k l, Runs k scheduleA s ∧ Runs l scheduleB t ∧ Ended s ∧ Ended t :=
  ⟨rfl, by decide, rfl, rfl, rfl, rfl, atEnd scheduleA, atEnd scheduleB, 7, 14, rfl, rfl, rfl, rfl⟩

theorem witness_EndedRunAnswersOrRecordsEveryRequest : Runs 1 eight (after eight) ∧ Ended (after eight) := ⟨rfl, rfl⟩

theorem witness_UnitAnswersInRequestOrder :
    Runs 1 eight (after eight) ∧ ∃ d, eight.units[0]? = some d := ⟨rfl, ⟨_, rfl⟩⟩

/-- The request `decode_vec2_f32 24, 0` is valid on eight words: its words are the last two. -/
theorem witness_ValidRequestsNeverFault :
    RequestsValid (oneUnit floats [0x00000001800000000]) ∧
    Runs 1 (oneUnit floats [0x00000001800000000]) (after (oneUnit floats [0x00000001800000000])) ∧
    Ended (after (oneUnit floats [0x00000001800000000])) ∧ NoFaultRecorded (oneUnit floats [0x00000001800000000]) := by
  refine ⟨fun w hw => ?_, rfl, rfl, rfl⟩
  have h : w = 0x00000001800000000 := by
    have : (oneUnit floats [0x00000001800000000]).outstanding = [0x00000001800000000] := rfl
    rw [this] at hw
    exact List.mem_singleton.1 hw
  subst h
  refine ⟨.decodeVec2F32 24 0, rfl, ?_, ?_⟩
  · show ¬ (24#32).toNat % 4 ≠ 0
    decide
  · show (24#32).toNat / 4 + (0#32).toNat * 2 + 2 ≤ 8
    decide

theorem witness_RepeatedRequestHasTheSameOutcome : Runs 1 eight (after eight) := rfl

/-- While a request is outstanding; and between runs, at the last word and the last byte of the buffer. -/
theorem witness_ProducerWritesOnlyBetweenRuns :
    eight.outstanding ≠ [] ∧ (after eight).outstanding = [] ∧ (after eight).buf.wf = true ∧
    7 < (after eight).buf.words ∧ 31 < 4 * (after eight).buf.words := by decide

theorem witness_RequesterIssuesAndTakesInOrder :
    (∃ d, eight.units[0]? = some d) ∧ 1 ≠ 0 ∧
    (∃ d r rest, (after eight).units[0]? = some d ∧ d.rsp = r :: rest) :=
  ⟨⟨_, rfl⟩, by decide, ⟨_, _, _, rfl, rfl⟩⟩

theorem witness_TriangleHoldsTheDecodedPositions :
    ∀ c ∈ (#v[(8, ⟨0, 1⟩), (20, ⟨1, 0⟩), (8, ⟨0, 0⟩)] : Vector (Word × Indices) 3),
      c.1.toNat / 4 + c.2.vertex.toNat * 3 + 3 ≤ eight.buf.words := by decide

theorem witness_DeterminismTestPassesForEverySpread :
    p3Spread.flatten.Perm p3Requests ∧ ([[0], [], [0]] : List (List Request)).flatten.Perm [0, 0] := by decide

end Sys2Proof.Tests
end

section
/-! The frame of delivering over the units: how many there are, every other unit, and the performing unit. These are
not `simp` lemmas, since `deliver_units` already rewrites their left sides. -/

namespace Sys2Proof.Machine

variable (w : Request) (r : Response) (s : State)

theorem deliver_units_length : (s.deliver w r).units.length = s.units.length := by
  rw [deliver_units, List.length_modify]

theorem deliver_unit_of_ne_active {u : Nat} (h : u ≠ s.active) : (s.deliver w r).units[u]? = s.units[u]? := by
  rw [deliver_units, List.getElem?_modify_ne _ _ h.symm]

theorem deliver_unit_active {d : DecoderUnit} (h : s.units[s.active]? = some d) :
    (s.deliver w r).units[s.active]? = some { req := d.req, inProgress := none, rsp := d.rsp ++ [r] } := by
  rw [deliver_units, List.getElem?_modify_eq, h, Option.map_eq_map, Option.map_some]

/-- Settles O28: the other fields by their lemmas, the units by the frame of delivering (R17, R20, R22). -/
theorem deliveredResponseGoesToTheActiveUnit : Obligations.DeliveredResponseGoesToTheActiveUnit := by
  intro w r s
  exact ⟨deliver_buf w r s, deliver_faults w r s, deliver_schedule w r s, deliver_answered w r s,
    deliver_units_length w r s, fun _ => deliver_unit_of_ne_active w r s, fun _ => deliver_unit_active w r s⟩

end Sys2Proof.Machine
end

section
/-! What running does to the requests, said once: a list of them is served, each gets its outcome on the buffer, and
the rest is still outstanding (R17, R18, R21, R105). The invariant's step and schedule independence are read off it. -/

namespace Sys2Proof.Machine

/-! ### The outcomes of a list of requests -/

/-- The responses these requests get on a buffer, each with its request, in the order of the requests. -/
def answersTo (b : Buffer) (ws : List Request) : List (Request × Response) :=
  ws.filterMap fun w => (outcomeOf b w).toOption.map (Prod.mk w)

/-- The entry a request makes in the fault record, if its outcome on the buffer is a fault. -/
def faultEntryOf (b : Buffer) (w : Request) : Option FaultEntry :=
  match outcomeOf b w with
  | .ok _ => none
  | .error f => some ⟨w, f⟩

/-- The entries these requests make in the fault record, in the order of the requests. -/
def faultsTo (b : Buffer) (ws : List Request) : List FaultEntry := ws.filterMap (faultEntryOf b)

variable (b : Buffer) (w : Request)

@[simp] theorem answersTo_nil : answersTo b [] = [] := rfl
@[simp] theorem faultsTo_nil : faultsTo b [] = [] := rfl

theorem answersTo_append (ws vs : List Request) : answersTo b (ws ++ vs) = answersTo b ws ++ answersTo b vs :=
  List.filterMap_append

theorem faultsTo_append (ws vs : List Request) : faultsTo b (ws ++ vs) = faultsTo b ws ++ faultsTo b vs :=
  List.filterMap_append

theorem answersTo_singleton_ok {r : Response} (h : outcomeOf b w = .ok r) : answersTo b [w] = [(w, r)] := by
  simp [answersTo, h, Except.toOption]

theorem answersTo_singleton_error {f : Fault} (h : outcomeOf b w = .error f) : answersTo b [w] = [] := by
  simp [answersTo, h, Except.toOption]

theorem faultsTo_singleton_ok {r : Response} (h : outcomeOf b w = .ok r) : faultsTo b [w] = [] := by
  simp [faultsTo, faultEntryOf, h]

theorem faultsTo_singleton_error {f : Fault} (h : outcomeOf b w = .error f) : faultsTo b [w] = [⟨w, f⟩] := by
  simp [faultsTo, faultEntryOf, h]

theorem outcomeOf_of_mem_answersTo {ws : List Request} {p : Request × Response} (hp : p ∈ answersTo b ws) :
    outcomeOf b p.1 = .ok p.2 := by
  obtain ⟨v, -, hv⟩ := List.mem_filterMap.1 hp
  cases h : outcomeOf b v with
  | ok r => rw [h] at hv; cases hv; exact h
  | error f => rw [h] at hv; cases hv

theorem outcomeOf_of_mem_faultsTo {ws : List Request} {e : FaultEntry} (he : e ∈ faultsTo b ws) :
    outcomeOf b e.request = .error e.fault := by
  obtain ⟨v, -, hv⟩ := List.mem_filterMap.1 he
  unfold faultEntryOf at hv
  cases h : outcomeOf b v with
  | ok r => rw [h] at hv; cases hv
  | error f => rw [h] at hv; cases hv; exact h

/-! ### Serving requests -/

/-- From `s` to `t` exactly these requests were served: they left the outstanding ones, their outcomes on the
unchanged buffer joined the run's books, and nothing else did. -/
structure Serves (s t : State) (served : List Request) : Prop where
  buf : t.buf = s.buf
  outstanding : s.outstanding.Perm (served ++ t.outstanding)
  answered : t.answered = s.answered ++ answersTo s.buf served
  faults : t.faults = s.faults ++ faultsTo s.buf served

theorem Serves.refl (s : State) : Serves s s [] where
  buf := rfl
  outstanding := .refl _
  answered := by simp
  faults := by simp

theorem Serves.trans {s t u : State} {ws vs : List Request} (h : Serves s t ws) (k : Serves t u vs) :
    Serves s u (ws ++ vs) where
  buf := k.buf.trans h.buf
  outstanding := by
    rw [List.append_assoc]
    exact h.outstanding.trans (k.outstanding.append_left ws)
  answered := by rw [k.answered, h.answered, h.buf, answersTo_append, List.append_assoc]
  faults := by rw [k.faults, h.faults, h.buf, faultsTo_append, List.append_assoc]

theorem wait_serves_nothing (s : State) : Serves s s.wait [] where
  buf := rfl
  outstanding := .refl _
  answered := by simp
  faults := by simp

/-- A step serves the request it takes, or none where it waits. -/
theorem step_serves_list {s t : State} (h : step s = .next t) : ∃ served, Serves s t served := by
  rcases step_serves s t h with ⟨rfl, -⟩ | ⟨w, d, e, hd, hw, -, hunits, -, hbuf, hout⟩
  · exact ⟨[], wait_serves_nothing s⟩
  · have hperm : s.outstanding.Perm ([w] ++ t.outstanding) := by
      rw [State.outstanding, State.outstanding, hunits]
      exact outstanding_set s.units s.turn d e w hd hw
    rcases hout with ⟨r, ho, -, hans, hflt⟩ | ⟨f, ho, -, hans, hflt⟩
    · exact ⟨[w], hbuf, hperm, by rw [hans, answersTo_singleton_ok _ _ ho],
        by rw [hflt, faultsTo_singleton_ok _ _ ho, List.append_nil]⟩
    · exact ⟨[w], hbuf, hperm, by rw [hans, answersTo_singleton_error _ _ ho, List.append_nil],
        by rw [hflt, faultsTo_singleton_error _ _ ho]⟩

theorem step_buf {s t : State} (h : step s = .next t) : t.buf = s.buf := by
  obtain ⟨_, hserves⟩ := step_serves_list h
  exact hserves.buf

/-- A run serves the requests its steps serve. -/
theorem runs_serves_list {k : Nat} {s t : State} (h : Runs k s t) : ∃ served, Serves s t served := by
  refine runs_induction (fun s t => ∃ served, Serves s t served) (fun s => ⟨[], .refl s⟩) ?_ k s t h
  rintro s t u hst ⟨vs, hvs⟩
  obtain ⟨ws, hws⟩ := step_serves_list hst
  exact ⟨ws ++ vs, hws.trans hvs⟩

/-- Over an ended run all that was outstanding has been served: the books have grown by its outcomes, up to order. -/
theorem books_of_ended_run {k : Nat} {s t : State} (h : Runs k s t) (hend : Ended t) :
    t.answered.Perm (s.answered ++ answersTo s.buf s.outstanding) ∧
      t.faults.Perm (s.faults ++ faultsTo s.buf s.outstanding) := by
  obtain ⟨served, -, hperm, hans, hflt⟩ := runs_serves_list h
  rw [show t.outstanding = [] from hend, List.append_nil] at hperm
  rw [hans, hflt]
  exact ⟨(hperm.symm.filterMap _).append_left _, (hperm.symm.filterMap _).append_left _⟩

end Sys2Proof.Machine
end

section
/-! The invariant: every step keeps it, and reset and launch meet it. -/

namespace Sys2Proof.Machine

/-! ### Every step keeps the invariant -/

theorem step_keeps_units_nonempty {s t : State} (h : step s = .next t) (hs : s.units ≠ []) : t.units ≠ [] := by
  rcases step_serves s t h with ⟨rfl, -⟩ | ⟨w, d, e, -, -, -, hunits, -⟩
  · exact hs
  · rw [hunits]
    exact mt (List.set_eq_nil_iff _ _).1 hs

/-- A step answers or faults the request it takes, so that no unit is left between the two (R18). -/
theorem step_keeps_noneInProgress {s t : State} (h : step s = .next t) (hs : ∀ d ∈ s.units, d.inProgress = none) :
    ∀ d ∈ t.units, d.inProgress = none := by
  rcases step_serves s t h with ⟨rfl, -⟩ | ⟨w, d, e, -, -, he, hunits, -⟩
  · exact hs
  · intro x hx
    rw [hunits] at hx
    rcases List.mem_or_eq_of_mem_set hx with hx | rfl
    · exact hs x hx
    · exact he

/-- Settles O41: the entries a step adds to the books are outcomes on the buffer, which it leaves alone. -/
theorem stepKeepsTheInvariant : Obligations.StepKeepsTheInvariant := by
  intro s t ⟨hwf, hunit, hidle, hans, hflt⟩ hst
  obtain ⟨served, hbuf, -, hans', hflt'⟩ := step_serves_list hst
  refine ⟨hbuf ▸ hwf, step_keeps_units_nonempty hst hunit, step_keeps_noneInProgress hst hidle, ?_, ?_⟩
  · intro p hp
    rw [hans', List.mem_append] at hp
    rw [hbuf]
    exact hp.elim (hans p) (outcomeOf_of_mem_answersTo _)
  · intro e he
    rw [hflt', List.mem_append] at he
    rw [hbuf]
    exact he.elim (hflt e) (outcomeOf_of_mem_faultsTo _)

/-! ### Where it begins -/

theorem Buffer.wf_foldl_append (ws : List Word) (b : Buffer) (hb : b.wf = true) :
    (ws.foldl Buffer.append b).wf = true := by
  induction ws generalizing b with
  | nil => exact hb
  | cons v ws ih => exact ih _ (Buffer.wf_append b hb v)

theorem Buffer.wf_ofWords (ws : List Word) : (Buffer.ofWords ws).wf = true :=
  Buffer.wf_foldl_append ws _ Buffer.wf_empty

/-- A machine with empty books whose units perform nothing has only its buffer and its units to check. -/
theorem inv_of_empty_books {s : State} (hwf : s.buf.wf = true) (hunit : s.units ≠ [])
    (hidle : ∀ d ∈ s.units, d.inProgress = none) (hans : s.answered = []) (hflt : s.faults = []) : Inv s :=
  ⟨hwf, hunit, hidle, by simp [hans], by simp [hflt]⟩

theorem inv_launch (b : Buffer) (hb : b.wf = true) (queues : List (List Request)) (hq : queues ≠ [])
    (schedule : List Nat) : Inv (State.launch b queues schedule) :=
  inv_of_empty_books hb (by simpa using hq) (by simp) rfl rfl

/-- Settles O42: both begin with empty books and idle units; the launched buffer is a producer's. -/
theorem resetAndLaunchMeetTheInvariant : Obligations.ResetAndLaunchMeetTheInvariant :=
  ⟨inv_of_empty_books State.reset_buf_wf (by decide) (by decide) rfl rfl,
    fun ws queues schedule hq => inv_launch _ (Buffer.wf_ofWords ws) queues hq schedule⟩

end Sys2Proof.Machine
end

section
/-! What one operation does and depends on: it always ends, its outcome is a function of the words read, and the
frame of finishing it (R10 to R14, R21, R22, R105, R128). -/

namespace Sys2Proof.Machine

/-! ### Every operation and every step answers -/

theorem finish_answers (w : Request) (result : Except Fault Response) (s : State) :
    ∃ t, s.finish w result = .next t := by
  cases result with
  | ok r => exact ⟨s.deliver w r, rfl⟩
  | error f => exact ⟨s.raise w f, rfl⟩

theorem step_of_takeRequest_none {s : State} (h : s.takeRequest = none) : step s = .next s.wait := by
  rw [step, h]

theorem step_of_takeRequest_some {s t : State} {w : Request} (h : s.takeRequest = some (w, t)) :
    step s = performRequest w t := by
  rw [step, h]

theorem step_answers (s : State) : ∃ t, step s = .next t := by
  cases h : s.takeRequest with
  | none => exact ⟨s.wait, step_of_takeRequest_none h⟩
  | some p =>
    rw [step_of_takeRequest_some h, performRequest_eq_finish]
    exact finish_answers _ _ _

/-- Settles O36: an operation finishes, and a step waits or finishes an operation. -/
theorem everyStepAnswersANextState : Obligations.EveryStepAnswersANextState :=
  ⟨fun i s => exec_eq_finish i s ▸ finish_answers _ _ _, step_answers⟩

/-! ### The outcome is a function of the words read -/

/-- Settles O33: with no words the lowest address out of range is the first one. -/
theorem emptyBufferFaultsEveryRequest : Obligations.EmptyBufferFaultsEveryRequest := by
  intro i s h0
  have hout : s.buf.words < firstWordOf i + strideOf i := by have := strideOf_pos i; omega
  rw [exec_eq_finish, resultOf_outside _ i hout, h0, Nat.max_zero]
  rfl

/-- The pure function of an operation sees the buffer through its reads alone: spelled out for each operation, `h` is
one equation for each of its reads. -/
theorem resultOf_congr {b c : Buffer} (i : Instr) (h : ∀ wa ∈ wordsRead i, bufRead b wa = bufRead c wa) :
    resultOf b i = resultOf c i := by
  cases i <;>
    simp only [wordsRead, strideOf, firstWordOf, Instr.base, Instr.index, List.forall_mem_map, List.mem_range,
      Nat.forall_lt_succ_right, Nat.not_lt_zero, false_imp_iff, forall_const, true_and, Nat.add_zero] at h <;>
    simp only [resultOf, vec2F32, vec3F32, vec4F32, vec4U16, vec4U8Unorm, h]

/-- Settles O34: both buffers answer the operation's reads alike, and all its words are inside. -/
theorem responseDependsOnTheWordsReadAlone : Obligations.ResponseDependsOnTheWordsReadAlone := by
  intro i s t h
  have hpos := strideOf_pos i
  obtain ⟨hlast, -⟩ := h (firstWordOf i + (strideOf i - 1)) ((mem_wordsRead i _).2 ⟨by omega, by omega⟩)
  obtain ⟨r, hr⟩ := resultOf_inside s.buf i (by omega)
  have hst : resultOf s.buf i = resultOf t.buf i := resultOf_congr i fun wa hwa => by
    obtain ⟨hs, ht, hword⟩ := h wa hwa
    rw [bufRead_inside _ _ hs, bufRead_inside _ _ ht, hword]
  refine ⟨r, ?_, ?_⟩
  · rw [exec_eq_finish, hr]; rfl
  · rw [exec_eq_finish, ← hst, hr]; rfl

/-! ### The frame of raising over the units, as for delivering -/

variable (w : Request) (f : Fault) (s : State)

theorem raise_units_length : (s.raise w f).units.length = s.units.length := by
  rw [raise_units, List.length_modify]

theorem raise_unit_of_ne_active {u : Nat} (h : u ≠ s.active) : (s.raise w f).units[u]? = s.units[u]? := by
  rw [raise_units, List.getElem?_modify_ne _ _ h.symm]

theorem raise_unit_active {d : DecoderUnit} (h : s.units[s.active]? = some d) :
    (s.raise w f).units[s.active]? = some { req := d.req, inProgress := none, rsp := d.rsp } := by
  rw [raise_units, List.getElem?_modify_eq, h, Option.map_eq_map, Option.map_some]

/-- Settles O35: an operation ends by delivering or by raising, and each has its frame. -/
theorem operationFrame : Obligations.OperationFrame := by
  intro i s t h
  rw [exec_eq_finish] at h
  rcases finish_cases _ _ _ _ h with ⟨r, -, rfl⟩ | ⟨f, -, rfl⟩
  · exact ⟨fun _ => rfl, rfl, rfl, rfl, deliver_units_length _ r s, fun _ => deliver_unit_of_ne_active _ r s,
      fun d hd => ⟨_, deliver_unit_active _ r s hd, rfl, rfl, .inl ⟨r, rfl, rfl, rfl⟩⟩⟩
  · exact ⟨fun _ => rfl, rfl, rfl, rfl, raise_units_length _ f s, fun _ => raise_unit_of_ne_active _ f s,
      fun d hd => ⟨_, raise_unit_active _ f s hd, rfl, rfl, .inr ⟨f, rfl, rfl, rfl⟩⟩⟩

end Sys2Proof.Machine
end

section
/-! Whole runs: every schedule gives the same books, and one unit answers in the order of its requests (R17, R23). -/

namespace Sys2Proof.Machine

/-- Settles O43: at its end a run's books are, up to order, the outcomes of what was outstanding at its start. -/
theorem everyScheduleGivesTheSameResponses : Obligations.EveryScheduleGivesTheSameResponses := by
  intro s₁ s₂ t₁ t₂ k₁ k₂ hbuf hout ha₁ ha₂ hf₁ hf₂ hr₁ hr₂ he₁ he₂
  obtain ⟨hans₁, hflt₁⟩ := books_of_ended_run hr₁ he₁
  obtain ⟨hans₂, hflt₂⟩ := books_of_ended_run hr₂ he₂
  rw [ha₁, hbuf, List.nil_append] at hans₁
  rw [ha₂, List.nil_append] at hans₂
  rw [hf₁, hbuf, List.nil_append] at hflt₁
  rw [hf₂, List.nil_append] at hflt₂
  exact ⟨hans₁.trans ((hout.filterMap _).trans hans₂.symm), hflt₁.trans ((hout.filterMap _).trans hflt₂.symm)⟩

/-- From `d` to `e` a unit served the front of its queue, and the responses among the outcomes joined its RSP in that
order (R17). -/
def UnitServes (b : Buffer) (d e : DecoderUnit) : Prop :=
  ∃ served, d.outstanding = served ++ e.outstanding ∧
    e.rsp = d.rsp ++ served.filterMap (fun w => (outcomeOf b w).toOption)

theorem UnitServes.refl (b : Buffer) (d : DecoderUnit) : UnitServes b d d := ⟨[], by simp, by simp⟩

theorem UnitServes.trans {b : Buffer} {d e f : DecoderUnit} (h : UnitServes b d e) (k : UnitServes b e f) :
    UnitServes b d f := by
  obtain ⟨ws, hout, hrsp⟩ := h
  obtain ⟨vs, kout, krsp⟩ := k
  refine ⟨ws ++ vs, ?_, ?_⟩
  · rw [hout, kout, List.append_assoc]
  · rw [krsp, hrsp, List.filterMap_append, List.append_assoc]

/-- Over one step every unit serves: the one whose turn it is at most its front request, every other one nothing. -/
theorem step_unitServes {s t : State} (h : step s = .next t) {u : Nat} {d : DecoderUnit}
    (hd : s.units[u]? = some d) : ∃ e, t.units[u]? = some e ∧ UnitServes s.buf d e := by
  rcases step_serves s t h with ⟨rfl, -⟩ | ⟨w, d', e, hd', hw, -, hunits, -, -, hout⟩
  · exact ⟨d, hd, .refl _ d⟩
  · rw [hunits]
    by_cases hu : s.turn = u
    · subst hu
      obtain rfl : d' = d := Option.some.inj (hd'.symm.trans hd)
      obtain ⟨hlt, -⟩ := List.getElem?_eq_some_iff.1 hd
      refine ⟨e, List.getElem?_set_self hlt, [w], hw, ?_⟩
      rcases hout with ⟨r, ho, hrsp, -⟩ | ⟨f, ho, hrsp, -⟩
      · simp [hrsp, ho, Except.toOption]
      · simp [hrsp, ho, Except.toOption]
    · exact ⟨d, by rw [List.getElem?_set_ne hu, hd], .refl _ d⟩

/-- Every unit of `s` is still there in `t` and has served a front part of its queue. -/
def EveryUnitServes (s t : State) : Prop :=
  ∀ (u : Nat) (d : DecoderUnit), s.units[u]? = some d → ∃ e, t.units[u]? = some e ∧ UnitServes s.buf d e

theorem runs_everyUnitServes : ∀ (k : Nat) (s t : State), Runs k s t → EveryUnitServes s t := by
  refine runs_induction EveryUnitServes (fun s u d hd => ⟨d, hd, .refl _ d⟩) ?_
  intro s t v hst ih u d hd
  obtain ⟨e, he, hde⟩ := step_unitServes hst hd
  obtain ⟨f, hf, hef⟩ := ih u e he
  exact ⟨f, hf, hde.trans (step_buf hst ▸ hef)⟩

/-- Settles O45: each step serves the front of a unit's queue, so a run serves a front part of it. -/
theorem unitAnswersInRequestOrder : Obligations.UnitAnswersInRequestOrder := by
  intro k s t u d h hd
  obtain ⟨e, he, served, hout, hrsp⟩ := runs_everyUnitServes k s t h u d hd
  exact ⟨e, served, he, hout, hrsp⟩

end Sys2Proof.Machine
end

section
/-! The step of a unit with an outstanding request, and the request placed for the coming step (R17, R18; log 1). -/

namespace Sys2Proof.Machine

/-- The state in which the unit whose turn it is has taken the request `w`, with `rest` still on its REQ (R17). -/
def State.taken (s : State) (d : DecoderUnit) (w : Request) (rest : List Request) : State :=
  { s with
    units := s.units.set s.turn { d with inProgress := some w, req := rest }
    active := s.turn
    schedule := s.schedule.tail }

theorem takeRequest_eq_taken {s : State} {d : DecoderUnit} {w : Request} {rest : List Request}
    (hd : s.units[s.turn]? = some d) (hw : d.outstanding = w :: rest) :
    s.takeRequest = some (w, s.taken d w rest) := by
  simp only [State.takeRequest, hd, hw]
  rfl

theorem step_eq_perform_taken {s : State} {d : DecoderUnit} {w : Request} {rest : List Request}
    (hd : s.units[s.turn]? = some d) (hw : d.outstanding = w :: rest) :
    step s = performRequest w (s.taken d w rest) :=
  step_of_takeRequest_some (takeRequest_eq_taken hd hw)

theorem performRequest_of_decode_ok {w : Request} {i : Instr} (h : decode w = .ok i) (s : State) :
    performRequest w s = exec i s := by
  rw [performRequest, h]

theorem performRequest_of_reservedOp {w : Request} {op : BitVec 3} (h : decode w = .error (.reservedOp op))
    (s : State) : performRequest w s = .next (s.raise w (.illegalOp op)) := by
  rw [performRequest, h]
  rfl

/-- Settles O37: the step takes the request and performs it. -/
theorem stepPerformsTheDecodedRequest : Obligations.StepPerformsTheDecodedRequest := by
  intro s d w rest hd hw
  have hstep := step_eq_perform_taken hd hw
  exact ⟨fun i hi => hstep.trans (performRequest_of_decode_ok hi _),
    fun op hop => hstep.trans (performRequest_of_reservedOp hop _)⟩

/-! ### Placing a request -/

variable (w : Request) (s : State)

theorem placeRequest_buf : (s.placeRequest w).buf = s.buf := by
  unfold State.placeRequest; split <;> rfl

theorem placeRequest_schedule : (s.placeRequest w).schedule = 0 :: s.schedule := by
  unfold State.placeRequest; split <;> rfl

theorem placeRequest_answered : (s.placeRequest w).answered = s.answered := by
  unfold State.placeRequest; split <;> rfl

theorem placeRequest_faults : (s.placeRequest w).faults = s.faults := by
  unfold State.placeRequest; split <;> rfl

theorem placeRequest_turn : (s.placeRequest w).turn = 0 := by
  rw [State.turn, placeRequest_schedule]

/-- The request placed is the next one of unit 0. -/
theorem placeRequest_front :
    ∃ d rest, (s.placeRequest w).units[0]? = some d ∧ d.outstanding = w :: rest := by
  unfold State.placeRequest
  split
  · exact ⟨_, _, rfl, rfl⟩
  · exact ⟨_, _, rfl, rfl⟩

theorem decode_of_decodeTableWord {nbits n : Nat} {i : Instr} (h : decodeTableWord nbits n = some i) :
    decode (BitVec.ofNat 67 (n % 2 ^ nbits)) = .ok i := by
  unfold decodeTableWord at h
  split at h
  · next hi => cases h; exact hi
  · cases h

/-- Settles O39: the request placed is the front one of unit 0, whose turn it is. -/
theorem placedRequestIsPerformedNext : Obligations.PlacedRequestIsPerformedNext := by
  intro s nbits n i h
  obtain ⟨d, rest, hd, hw⟩ := placeRequest_front (BitVec.ofNat 67 (n % 2 ^ nbits)) s
  rw [← placeRequest_turn (BitVec.ofNat 67 (n % 2 ^ nbits)) s] at hd
  refine ⟨_, (step_eq_perform_taken hd hw).trans (performRequest_of_decode_ok (decode_of_decodeTableWord h) _),
    placeRequest_buf _ s, placeRequest_turn _ s, ?_, placeRequest_answered _ s, placeRequest_faults _ s⟩
  simp only [State.taken, placeRequest_schedule, List.tail_cons]

end Sys2Proof.Machine
end

section
/-! Reset and the requester's moves (R24, R120, R131). -/

namespace Sys2Proof.Machine

@[simp] theorem applyReset_outstanding (s : State) : s.applyReset.outstanding = [] := by
  simp [State.outstanding]

theorem applyReset_idle (s : State) : ∀ d ∈ s.applyReset.units, d = DecoderUnit.idle := by
  simp

/-- Settles O49: reset replaces each unit by an idle one; the reset state is closed. -/
theorem resetLeavesIdleUnitsAndTheBufferAlone : Obligations.ResetLeavesIdleUnitsAndTheBufferAlone := by
  refine ⟨fun s => ⟨rfl, by simp, fun d hd => ?_, rfl, applyReset_outstanding s⟩, rfl, rfl, rfl, by decide⟩
  rw [applyReset_idle s d hd]
  exact ⟨rfl, rfl, rfl⟩

/-- Putting a unit with the same outstanding requests in a unit's place leaves the machine's as they are. -/
theorem outstanding_set_of_eq (us : List DecoderUnit) (u : Nat) (d e : DecoderUnit) (h : us[u]? = some d)
    (he : e.outstanding = d.outstanding) :
    (us.set u e).flatMap DecoderUnit.outstanding = us.flatMap DecoderUnit.outstanding := by
  induction us generalizing u with
  | nil => rfl
  | cons a us ih =>
    cases u with
    | zero =>
      obtain rfl : a = d := by simpa using h
      simp [he]
    | succ u =>
      simp only [List.set_cons_succ, List.flatMap_cons]
      rw [ih u (by simpa using h)]

theorem issue_eq_next {u : Nat} {s : State} (hu : u < s.units.length) (w : Request) :
    s.issue u w = .next { s with units := s.units.modify u (fun d => { d with req := d.req ++ [w] }) } :=
  if_pos hu

theorem takeResponse_eq_some {u : Nat} {s : State} {d : DecoderUnit} {r : Response} {rest : List Response}
    (hd : s.units[u]? = some d) (hr : d.rsp = r :: rest) :
    s.takeResponse u = some (r, { s with units := s.units.set u { d with rsp := rest } }) := by
  simp only [State.takeResponse, hd, hr]

/-- Settles O51: issuing changes one unit's REQ, taking one unit's RSP. -/
theorem requesterIssuesAndTakesInOrder : Obligations.RequesterIssuesAndTakesInOrder := by
  constructor
  · intro u w s d hd
    obtain ⟨hu, -⟩ := List.getElem?_eq_some_iff.1 hd
    refine ⟨_, issue_eq_next hu w, ?_, rfl, rfl, rfl, fun x hx => List.getElem?_modify_ne _ _ hx.symm⟩
    rw [List.getElem?_modify_eq, hd, Option.map_eq_map, Option.map_some]
  · intro u s d r rest hd hr
    obtain ⟨hu, -⟩ := List.getElem?_eq_some_iff.1 hd
    exact ⟨_, takeResponse_eq_some hd hr, List.getElem?_set_self hu, rfl, outstanding_set_of_eq _ _ d _ hd rfl,
      fun x hx => List.getElem?_set_ne hx.symm⟩

end Sys2Proof.Machine
end

section
/-! Address generation and the read primitive (R33, R34, R36, R37). -/

namespace Sys2Proof.Machine

/-- Dropping the two low bits of an operand divides it by 4: `base[31:2]` is `base div 4` (R33). -/
theorem toNat_extract_above_two (b : Word) : (b.extractLsb' 2 30).toNat = b.toNat / 4 := by
  have hb := b.isLt
  rw [BitVec.extractLsb'_toNat, Nat.shiftRight_eq_div_pow]
  omega

/-- Settles O8: the strides are the table's, and the bound is the room every operation has in the word addresses. -/
theorem firstWordAddressIsExact : Obligations.FirstWordAddressIsExact := by
  intro b x
  refine ⟨rfl, rfl, rfl, rfl, congrArg (b.toNat / 4 + ·) (Nat.mul_one _), toNat_extract_above_two b, fun i => ?_⟩
  have hfits := firstWordOf_fits i
  omega

/-- No operation forms an address above this one (R34). -/
theorem wordsRead_le {i : Instr} {wa : Nat} (h : wa ∈ wordsRead i) : wa ≤ 2 ^ 34 + 2 ^ 30 - 2 := by
  obtain ⟨-, hlt⟩ := (mem_wordsRead i wa).1 h
  have hfits := firstWordOf_fits i
  have hstride := strideOf_le i
  omega

/-- Settles O9: the lists are the definition's, the bound is that of all addresses, and the largest operands attain
it. -/
theorem operationsReadConsecutiveWords : Obligations.OperationsReadConsecutiveWords := by
  refine ⟨fun b x => ⟨rfl, rfl, rfl, rfl, ?_⟩, fun i wa => wordsRead_le, ?_⟩
  · exact congrArg (fun n => [b.toNat / 4 + n]) (Nat.mul_one _)
  · rw [mem_wordsRead]
    decide

/-- Settles O10: a 35-bit address loses nothing in the fault that reports it. -/
theorem bufReadReturnsTheWordOrFaults : Obligations.BufReadReturnsTheWordOrFaults := by
  intro b wa hwa
  refine ⟨bufRead_inside b wa, fun hout => ⟨_, bufRead_outside b wa hout, ?_⟩⟩
  rw [BitVec.toNat_ofNat, Nat.mod_eq_of_lt hwa]

end Sys2Proof.Machine
end

section
/-! The byte view of a word, and the buffer a producer appends (R30, R31, R123). -/

namespace Sys2Proof.Machine

/-- A byte put below a bit vector shifts it by one base-256 digit. -/
theorem toNat_append_byte {n : Nat} (x : BitVec n) (y : Byte) : (x ++ y).toNat = x.toNat * 256 + y.toNat := by
  rw [BitVec.toNat_append, ← Nat.shiftLeft_add_eq_or_of_lt y.isLt, Nat.shiftLeft_eq]

/-- A word is the number whose base-256 digits are its four stored bytes, the lowest address lowest (R31). -/
theorem Buffer.toNat_word (b : Buffer) (wa : Nat) : (b.word wa).toNat =
    (((b.bytes.read (4 * wa + 3)).toNat * 256 + (b.bytes.read (4 * wa + 2)).toNat) * 256 +
      (b.bytes.read (4 * wa + 1)).toNat) * 256 + (b.bytes.read (4 * wa)).toNat := by
  rw [Buffer.word, toNat_append_byte, toNat_append_byte, toNat_append_byte]

/-- Byte `k` of a word is the byte stored at byte address `4*wa + k` (R31): it is that digit. -/
theorem Buffer.extract_word (b : Buffer) (wa k : Nat) (hk : k < 4) :
    (b.word wa).extractLsb' (8 * k) 8 = b.bytes.read (4 * wa + k) := by
  have h0 := (b.bytes.read (4 * wa)).isLt
  have h1 := (b.bytes.read (4 * wa + 1)).isLt
  have h2 := (b.bytes.read (4 * wa + 2)).isLt
  have h3 := (b.bytes.read (4 * wa + 3)).isLt
  apply BitVec.eq_of_toNat_eq
  rw [BitVec.extractLsb'_toNat, Nat.shiftRight_eq_div_pow, Buffer.toNat_word]
  obtain rfl | rfl | rfl | rfl : k = 0 ∨ k = 1 ∨ k = 2 ∨ k = 3 := by omega
  all_goals
    simp only [Nat.add_zero, Nat.reduceMul, Nat.reducePow, Nat.div_one]
    omega

/-- Settles O11: a byte offset is four times its word's address plus the byte's place in the word. -/
theorem byteViewIsLittleEndian : Obligations.ByteViewIsLittleEndian := by
  intro b n
  rw [b.extract_word (n / 4) (n % 4) (Nat.mod_lt n (by decide)), Nat.div_add_mod]

theorem Buffer.ofWords_concat (ws : List Word) (v : Word) :
    Buffer.ofWords (ws ++ [v]) = (Buffer.ofWords ws).append v :=
  List.foldl_concat ..

@[simp] theorem Buffer.words_ofWords (ws : List Word) : (Buffer.ofWords ws).words = ws.length := by
  induction ws using List.reverseRecOn with
  | nil => rfl
  | append_singleton ws v ih =>
    rw [Buffer.ofWords_concat, Buffer.words_append, ih, List.length_append, List.length_singleton]

/-- Each append stores its word and leaves the words before it, so that word `wa` is the one appended as `wa`-th. -/
theorem Buffer.word_ofWords (ws : List Word) (wa : Nat) (h : wa < ws.length) :
    (Buffer.ofWords ws).word wa = ws[wa] := by
  induction ws using List.reverseRecOn with
  | nil => cases h
  | append_singleton ws v ih =>
    rw [Buffer.ofWords_concat, Buffer.word_append _ (Buffer.wf_ofWords ws), Buffer.words_ofWords]
    split
    · next hlast => subst hlast; rw [List.getElem_concat_length rfl]
    · next hne =>
      have hwa : wa < ws.length := by rw [List.length_append, List.length_singleton] at h; omega
      rw [ih hwa, List.getElem_append_left hwa]

/-- Settles O12: length, canonical form and contents, each by the lemma of its name. -/
theorem appendedWordsAreTheBuffer : Obligations.AppendedWordsAreTheBuffer := fun ws =>
  ⟨Buffer.words_ofWords ws, Buffer.wf_ofWords ws, Buffer.word_ofWords ws⟩

end Sys2Proof.Machine
end

section
/-! The halfwords of a word, as masks, as numbers and as pairs of bytes (R31, R81, R82). -/

namespace Sys2Proof.Machine

theorem toNat_lo16 (w : Word) : (lo16 w).toNat = w.toNat % 65536 := by
  simp only [lo16, BitVec.toNat_setWidth, BitVec.extractLsb'_toNat, Nat.shiftRight_zero]
  omega

theorem toNat_hi16 (w : Word) : (hi16 w).toNat = w.toNat / 65536 := by
  have hw := w.isLt
  simp only [hi16, BitVec.toNat_setWidth, BitVec.extractLsb'_toNat, Nat.shiftRight_eq_div_pow]
  omega

/-- Masking with 0xFFFF leaves the remainder by 65536. -/
theorem toNat_and_halfword_mask (w : Word) : (w &&& 0xFFFF).toNat = w.toNat % 65536 :=
  (BitVec.toNat_and ..).trans (Nat.and_two_pow_sub_one_eq_mod w.toNat 16)

theorem lo16_eq_and (w : Word) : lo16 w = w &&& 0xFFFF := by
  apply BitVec.eq_of_toNat_eq
  rw [toNat_lo16, toNat_and_halfword_mask]

theorem hi16_eq_shift_and (w : Word) : hi16 w = (w >>> 16) &&& 0xFFFF := by
  have hw := w.isLt
  apply BitVec.eq_of_toNat_eq
  rw [toNat_hi16, toNat_and_halfword_mask, BitVec.toNat_ushiftRight, Nat.shiftRight_eq_div_pow]
  omega

/-- A word is rebuilt from its halfwords (R82). -/
theorem toNat_eq_halfwords (w : Word) : w.toNat = (lo16 w).toNat + (hi16 w).toNat * 65536 := by
  rw [toNat_lo16, toNat_hi16]
  omega

/-- Byte `k` of a word in the byte view, as a number. -/
theorem Buffer.toNat_byteAt (b : Buffer) (wa k : Nat) (hk : k < 4) :
    (b.byteAt (4 * wa + k)).toNat = (b.word wa).toNat / 2 ^ (8 * k) % 256 := by
  have hdiv : (4 * wa + k) / 4 = wa := by omega
  have hmod : (4 * wa + k) % 4 = k := by omega
  rw [Buffer.byteAt, hdiv, hmod, BitVec.extractLsb'_toNat, Nat.shiftRight_eq_div_pow]

/-- The low halfword is little-endian in the byte view (R82). -/
theorem Buffer.toNat_lo16_word (b : Buffer) (wa : Nat) : (lo16 (b.word wa)).toNat =
    (b.byteAt (4 * wa)).toNat + (b.byteAt (4 * wa + 1)).toNat * 256 := by
  have hlow := b.toNat_byteAt wa 0 (by decide)
  have hhigh := b.toNat_byteAt wa 1 (by decide)
  simp only [Nat.add_zero, Nat.mul_zero, pow_zero, Nat.div_one] at hlow
  rw [toNat_lo16]
  omega

/-- The high halfword is little-endian in the byte view (R82). -/
theorem Buffer.toNat_hi16_word (b : Buffer) (wa : Nat) : (hi16 (b.word wa)).toNat =
    (b.byteAt (4 * wa + 2)).toNat + (b.byteAt (4 * wa + 3)).toNat * 256 := by
  have hw := (b.word wa).isLt
  have hlow := b.toNat_byteAt wa 2 (by decide)
  have hhigh := b.toNat_byteAt wa 3 (by decide)
  rw [toNat_hi16]
  omega

/-- Settles O22: the components are the halfwords of two words; each clause is a fact about one of them. -/
theorem packedHalfwordsLoseNoBit : Obligations.PackedHalfwordsLoseNoBit := by
  intro buf base index wa0 h
  refine ⟨_, _, _, _, vec4U16_inside buf base index h, lo16_eq_and _, hi16_eq_shift_and _, lo16_eq_and _,
    hi16_eq_shift_and _, toNat_eq_halfwords _, toNat_eq_halfwords _, fun k hk => ?_⟩
  match k, hk with
  | 0, _ => exact buf.toNat_lo16_word wa0
  | 1, _ => exact buf.toNat_hi16_word wa0
  | 2, _ => exact buf.toNat_lo16_word (wa0 + 1)
  | 3, _ => exact buf.toNat_hi16_word (wa0 + 1)

end Sys2Proof.Machine
end

section
/-! What a run leaves alone: the buffer, the number of units, and with the buffer every request's outcome (R39, R40,
R109). -/

namespace Sys2Proof.Machine

theorem step_units_length {s t : State} (h : step s = .next t) : t.units.length = s.units.length := by
  rcases step_serves s t h with ⟨rfl, -⟩ | ⟨w, d, e, -, -, -, hunits, -⟩
  · rfl
  · rw [hunits, List.length_set]

theorem runs_buf {k : Nat} {s t : State} (h : Runs k s t) : t.buf = s.buf := by
  obtain ⟨_, hserves⟩ := runs_serves_list h
  exact hserves.buf

theorem runs_units_length {k : Nat} {s t : State} (h : Runs k s t) : t.units.length = s.units.length :=
  runs_induction (fun s t => t.units.length = s.units.length) (fun _ => rfl)
    (fun _ _ _ hst ih => ih.trans (step_units_length hst)) k s t h

/-- Settles O40: no step changes either. -/
theorem bufferIsFrozenDuringARun : Obligations.BufferIsFrozenDuringARun := fun _ _ _ h =>
  ⟨runs_buf h, runs_units_length h⟩

/-- Settles O48: a request's outcome is a function of the buffer, which a run leaves alone. -/
theorem repeatedRequestHasTheSameOutcome : Obligations.RepeatedRequestHasTheSameOutcome := by
  intro k s t w h
  refine ⟨outcomeOf s.buf w, performRequest_eq_finish w s, ?_⟩
  rw [performRequest_eq_finish, runs_buf h]

end Sys2Proof.Machine
end

section
/-! The request word as a number, and the decoder on it: the word's three base-2^32 digits are its fields (R50, R51, R66),
and the op field alone decides whether the word is an operation (R54 to R56). -/

namespace Sys2Proof.Machine

/-- A 32-bit field put below a bit vector shifts it by one base-2^32 digit (R50). -/
theorem toNat_append_word {n : Nat} (x : BitVec n) (y : Word) : (x ++ y).toNat = x.toNat * 2 ^ 32 + y.toNat := by
  rw [BitVec.toNat_append, ← Nat.shiftLeft_add_eq_or_of_lt y.isLt, Nat.shiftLeft_eq]

theorem toNat_encode (i : Instr) :
    (encode i).toNat = i.opcode.toNat * 2 ^ 64 + i.base.toNat * 2 ^ 32 + i.index.toNat := by
  rw [encode, toNat_append_word, toNat_append_word]
  omega

@[simp] theorem requestOp_encode (i : Instr) : requestOp (encode i) = i.opcode :=
  Laws.TableRow.op_of_fields _ _ _

@[simp] theorem requestBase_encode (i : Instr) : requestBase (encode i) = i.base := by
  have hbase := i.base.isLt
  have hindex := i.index.isLt
  apply BitVec.eq_of_toNat_eq
  rw [requestBase, BitVec.extractLsb'_toNat, Nat.shiftRight_eq_div_pow, toNat_encode]
  omega

@[simp] theorem requestIndex_encode (i : Instr) : requestIndex (encode i) = i.index := by
  have hindex := i.index.isLt
  apply BitVec.eq_of_toNat_eq
  rw [requestIndex, BitVec.extractLsb'_toNat, Nat.shiftRight_zero, toNat_encode]
  omega

/-- The op field of an encoded operation selects its row, and the operand fields fill it. -/
theorem decode_encode (i : Instr) : decode (encode i) = .ok i := by
  rw [decode, requestOp_encode, requestBase_encode, requestIndex_encode]
  cases i <;> rfl

/-- Settles O1: no operand value is excluded, so the well-formedness is not needed. -/
theorem encodedInstructionDecodesToItself : Obligations.EncodedInstructionDecodesToItself :=
  fun i _ => decode_encode i

/-- Settles O3: the op codes of R51 in the number a request word is. -/
theorem requestWordIsOpBaseIndex : Obligations.RequestWordIsOpBaseIndex := fun _ _ =>
  ⟨toNat_encode _, toNat_encode _, toNat_encode _, toNat_encode _, toNat_encode _⟩

theorem toNat_opcode_le (i : Instr) : i.opcode.toNat ≤ 4 := by
  cases i <;> simp [Instr.opcode]

/-- An op code of the table selects a row, whatever the operands (R54). -/
theorem exists_decode_of_op_le {w : Request} (h : (requestOp w).toNat ≤ 4) : ∃ i, decode w = .ok i := by
  unfold decode
  interval_cases (requestOp w).toNat
  all_goals exact ⟨_, rfl⟩

/-- A reserved op code is rejected by its name, whatever the operands (R55). -/
theorem decode_of_reserved_op {w : Request} (h : 5 ≤ (requestOp w).toNat) :
    decode w = .error (.reservedOp (requestOp w)) := by
  unfold decode
  split
  case h_6 => rfl
  all_goals omega

/-- Settles O2: a word that decodes is the encoding of what it decodes to, so its fields are that operation's. -/
theorem everyWordDecodesByItsOpFieldAlone : Obligations.EveryWordDecodesByItsOpFieldAlone := by
  intro w
  refine ⟨⟨?_, exists_decode_of_op_le⟩, ?_, decode_of_reserved_op⟩
  · rintro ⟨i, hi⟩
    obtain rfl := encode_of_decode w i hi
    exact (congrArg BitVec.toNat (requestOp_encode i)).trans_le (toNat_opcode_le i)
  · intro i hi
    obtain rfl := encode_of_decode w i hi
    exact ⟨(requestOp_encode i).symm, (requestBase_encode i).symm, (requestIndex_encode i).symm⟩

/-- Settles O4: the seven words of the table are evaluated by the decoder. -/
theorem specEncodingExamplesDecode : Obligations.SpecEncodingExamplesDecode := by
  unfold Obligations.SpecEncodingExamplesDecode
  decide

end Sys2Proof.Machine
end

section
/-! The result of an operation is one function of the buffer and the operands, and its shape is the op code's (R20, R57,
R58, R63). -/

namespace Sys2Proof.Machine

/-! ### The result in range -/

/-- The response of an operation whose words are all in the buffer. -/
def responseInside (b : Buffer) (i : Instr) : Response :=
  let word := fun j => b.word (firstWordOf i + j)
  match i with
  | .decodeVec2F32 _ _ => .vecF32 [word 0, word 1]
  | .decodeVec3F32 _ _ => .vecF32 [word 0, word 1, word 2]
  | .decodeVec4F32 _ _ => .vecF32 [word 0, word 1, word 2, word 3]
  | .decodeVec4U16 _ _ => .vecU32 [lo16 (word 0), hi16 (word 0), lo16 (word 1), hi16 (word 1)]
  | .decodeVec4U8Unorm _ _ => .vecF32 ([0, 1, 2, 3].map fun k => unorm (byteOf (word 0) k))

theorem resultOf_eq_responseInside {b : Buffer} {i : Instr} (h : firstWordOf i + strideOf i ≤ b.words) :
    resultOf b i = .ok (responseInside b i) := by
  cases i with
  | decodeVec2F32 base index => exact vec2F32_inside b base index h
  | decodeVec3F32 base index => exact vec3F32_inside b base index h
  | decodeVec4F32 base index => exact vec4F32_inside b base index h
  | decodeVec4U16 base index => exact vec4U16_inside b base index h
  | decodeVec4U8Unorm base index => exact vec4U8Unorm_inside b base index h

/-- An operation answers in no other case and with no other response. -/
theorem eq_responseInside_of_resultOf {b : Buffer} {i : Instr} {r : Response} (h : resultOf b i = .ok r) :
    r = responseInside b i := by
  rcases le_or_gt (firstWordOf i + strideOf i) b.words with hin | hout
  · rw [resultOf_eq_responseInside hin] at h
    exact (Except.ok.inj h).symm
  · rw [resultOf_outside b i hout] at h
    cases h

/-! ### The range of the components -/

theorem toNat_lo16_le (w : Word) : (lo16 w).toNat ≤ 0xFFFF := by
  rw [toNat_lo16]
  omega

theorem toNat_hi16_le (w : Word) : (hi16 w).toNat ≤ 0xFFFF := by
  have hw := w.isLt
  rw [toNat_hi16]
  omega

/-- No pattern of `UNORM` is above that of 1.0, by the algorithm of R87 on each byte. -/
theorem toNat_unorm_le (b : Byte) : (unorm b).toNat ≤ 0x3F800000 := by
  revert b
  decide +kernel

theorem f32Exponent_eq (p : Word) : f32Exponent p = p.toNat / 2 ^ 23 % 2 ^ 8 := by
  rw [f32Exponent, BitVec.extractLsb'_toNat, Nat.shiftRight_eq_div_pow]

theorem f32Fraction_eq (p : Word) : f32Fraction p = p.toNat % 2 ^ 23 := by
  rw [f32Fraction, BitVec.extractLsb'_toNat, Nat.shiftRight_zero]

/-- Patterns up to that of 1.0 have magnitudes up to it: a smaller exponent leaves at most `2^24 * 2^125`, and
exponent 127 comes with the fraction 0 alone. -/
theorem f32Magnitude_le_of_toNat_le {p : Word} (h : p.toNat ≤ 0x3F800000) : f32Magnitude p ≤ 2 ^ 149 := by
  have hexp := f32Exponent_eq p
  have hfrac := f32Fraction_eq p
  unfold f32Magnitude
  split
  · omega
  · obtain hlt | ⟨he, hf⟩ : f32Exponent p - 1 ≤ 125 ∨ f32Exponent p = 127 ∧ f32Fraction p = 0 := by omega
    · calc (2 ^ 23 + f32Fraction p) * 2 ^ (f32Exponent p - 1)
          ≤ 2 ^ 24 * 2 ^ 125 := Nat.mul_le_mul (by omega) (Nat.pow_le_pow_right (by decide) hlt)
        _ = 2 ^ 149 := by norm_num
    · rw [he, hf]
      norm_num

/-- The patterns up to that of 1.0 are the finite numbers from 0 to 1 (G1, presumed: log 11). -/
theorem f32_range_of_toNat_le {p : Word} (h : p.toNat ≤ 0x3F800000) :
    f32Finite p = true ∧ 0 ≤ f32Units p ∧ f32Units p ≤ f32One := by
  have hexp := f32Exponent_eq p
  have hpos : f32Negative p = false := Nat.testBit_lt_two_pow (by omega)
  have hmag := f32Magnitude_le_of_toNat_le h
  have hunits : f32Units p = f32Magnitude p := by rw [f32Units, hpos]; rfl
  refine ⟨decide_eq_true (by omega), ?_, ?_⟩
  · rw [hunits]
    exact Int.natCast_nonneg _
  · rw [hunits]
    exact Int.ofNat_le.2 hmag

/-- Settles O5: the shape is that of the response in range, the ranges those of a halfword and of `UNORM`. -/
theorem resultKindAndCountFollowTheOpCode : Obligations.ResultKindAndCountFollowTheOpCode := by
  intro buf b x r
  refine ⟨fun h => ⟨_, _, eq_responseInside_of_resultOf h⟩, fun h => ⟨_, _, _, eq_responseInside_of_resultOf h⟩,
    fun h => ⟨_, _, _, _, eq_responseInside_of_resultOf h⟩,
    fun h => ⟨_, _, _, _, eq_responseInside_of_resultOf h, ?_⟩,
    fun h => ⟨_, _, _, _, eq_responseInside_of_resultOf h, ?_⟩⟩
  · simp [toNat_lo16_le, toNat_hi16_le]
  · simp [f32_range_of_toNat_le, toNat_unorm_le]

/-! ### The RSP bus -/

theorem length_components_responseInside (b : Buffer) (i : Instr) :
    (responseInside b i).components.length = componentsOf i := by
  cases i <;> rfl

/-- Lane `k` of the bus is the lane the block drives: bits `32*k+31 : 32*k` (R58). -/
theorem busLane_bus (r : Response) (spare : Nat → Word) {k : Nat} (hk : k < 4) :
    busLane (r.bus spare) k = r.lane spare k := by
  have h0 := (r.lane spare 0).isLt
  have h1 := (r.lane spare 1).isLt
  have h2 := (r.lane spare 2).isLt
  apply BitVec.eq_of_toNat_eq
  rw [busLane, BitVec.extractLsb'_toNat, Nat.shiftRight_eq_div_pow, Response.bus, toNat_append_word,
    toNat_append_word, toNat_append_word]
  have h3 := (r.lane spare 3).isLt
  obtain rfl | rfl | rfl | rfl : k = 0 ∨ k = 1 ∨ k = 2 ∨ k = 3 := by omega
  all_goals omega

theorem lane_of_lt (r : Response) (spare : Nat → Word) {k : Nat} (hk : k < r.components.length) :
    r.lane spare k = r.components.getD k 0 := by
  rw [Response.lane, List.getD_eq_getElem _ _ hk, List.getD_eq_getElem _ _ hk]

theorem lane_of_le (r : Response) (spare : Nat → Word) {k : Nat} (hk : r.components.length ≤ k) :
    r.lane spare k = spare k :=
  List.getD_eq_default _ _ hk

theorem componentsOf_le (i : Instr) : componentsOf i ≤ 4 := by
  cases i <;> simp [componentsOf]

/-- Settles O6: the bus has the driven lanes, and these are the components below the count and the spare values from
it on. -/
theorem busCarriesTheComponentsWhateverTheSpareLanes :
    Obligations.BusCarriesTheComponentsWhateverTheSpareLanes := by
  intro buf i r spare h
  have hlen : r.components.length = componentsOf i := by
    rw [eq_responseInside_of_resultOf h, length_components_responseInside]
  have hfour := componentsOf_le i
  refine ⟨hlen, fun k hk => ?_, fun k hk hk4 => ?_⟩
  · rw [busLane_bus r spare (by omega), lane_of_lt r spare hk]
  · rw [busLane_bus r spare hk4, lane_of_le r spare (hlen.trans_le hk)]

/-! ### Triangles -/

/-- The response to one corner's request (R63, R65). -/
def cornerResponse (b : Buffer) (c : Word × Indices) : Response :=
  responseInside b (.decodeVec3F32 c.1 c.2.vertex)

/-- The position packed from a corner's response is its three words. -/
theorem positionOf_cornerResponse (b : Buffer) (c : Word × Indices) : positionOf (cornerResponse b c) =
    some #v[b.word (c.1.toNat / 4 + c.2.vertex.toNat * 3), b.word (c.1.toNat / 4 + c.2.vertex.toNat * 3 + 1),
      b.word (c.1.toNat / 4 + c.2.vertex.toNat * 3 + 2)] := rfl

/-- Settles O53: in range, each corner's request is answered with the response whose position is its vertex. -/
theorem triangleHoldsTheDecodedPositions : Obligations.TriangleHoldsTheDecodedPositions := by
  intro s corners indices hin
  obtain ⟨⟨cs⟩, hcs⟩ := corners
  obtain ⟨c0, c1, c2, rfl⟩ := List.length_eq_three.1 hcs
  have hanswer : ∀ c ∈ [c0, c1, c2],
      resultOf s.buf (.decodeVec3F32 c.1 c.2.vertex) = .ok (cornerResponse s.buf c) :=
    fun c hc => resultOf_eq_responseInside (hin c (by simpa using hc))
  refine ⟨cornerResponse s.buf c0, cornerResponse s.buf c1, cornerResponse s.buf c2, ?_, ?_⟩
  · simpa [triangleRequests] using hanswer
  · simp [packTriangle, positionOf_cornerResponse]

end Sys2Proof.Machine
end

section
/-! The listing form reads back (R64, log 20): a written operand is a number of eight hexadecimal digits, and a written
line has no `;`, no blank at its ends, and its first blank after the mnemonic. -/

namespace Sys2Proof.Machine

/-! ### Numbers -/

/-- Reading a digit back is a fact about sixteen characters. -/
theorem digitValue_hexDigit {n : Nat} (h : n < 16) : digitValue 16 (hexDigit n) = some n := by
  revert n
  decide

/-- Digits are read as a base-16 expansion, the first most significant. -/
theorem digitsValue_map_hexDigit {ds : List Nat} (h : ∀ d ∈ ds, d < 16) (acc : Nat) :
    digitsValue 16 acc (ds.map hexDigit) = some (ds.foldl (fun n d => n * 16 + d) acc) := by
  induction ds generalizing acc with
  | nil => rfl
  | cons d ds ih =>
    obtain ⟨hd, hds⟩ := List.forall_mem_cons.1 h
    rw [List.map_cons, digitsValue, digitValue_hexDigit hd]
    exact ih hds _

/-- The hexadecimal digits of a word, the most significant first. -/
def hexDigitsOf (w : Word) : List Nat := [7, 6, 5, 4, 3, 2, 1, 0].map fun k => w.toNat / 16 ^ k % 16

theorem hexDigitsOf_lt (w : Word) : ∀ d ∈ hexDigitsOf w, d < 16 := by
  intro d hd
  obtain ⟨k, -, rfl⟩ := List.mem_map.1 hd
  exact Nat.mod_lt _ (by decide)

theorem patternText_eq (w : Word) : patternText w = '0' :: 'x' :: (hexDigitsOf w).map hexDigit := by
  rw [patternText, hexDigitsOf, List.map_map]
  rfl

/-- Eight hexadecimal digits denote the 32-bit word they are taken from. -/
theorem foldl_hexDigitsOf (w : Word) : (hexDigitsOf w).foldl (fun n d => n * 16 + d) 0 = w.toNat := by
  have hw := w.isLt
  simp only [hexDigitsOf, List.map_cons, List.map_nil, List.foldl_cons, List.foldl_nil]
  omega

theorem parseOperand_patternText (w : Word) : parseOperand (patternText w) = some w := by
  have hnumber : parseNumber (patternText w) = some w.toNat := by
    rw [← foldl_hexDigitsOf w, ← digitsValue_map_hexDigit (hexDigitsOf_lt w), patternText_eq]
    rfl
  rw [parseOperand, hnumber]
  simp [w.isLt]

/-! ### Lines -/

/-- The characters a line is cut at (R64). -/
def separators : List Char := [' ', ',', ';']

theorem hexDigit_not_mem_separators {n : Nat} (h : n < 16) : hexDigit n ∉ separators := by
  revert n
  decide

theorem separators_disjoint_patternText (w : Word) : separators.Disjoint (patternText w) := by
  have hdigits : separators.Disjoint ((hexDigitsOf w).map hexDigit) := by
    intro c hc hmem
    obtain ⟨d, hd, rfl⟩ := List.mem_map.1 hmem
    exact hexDigit_not_mem_separators (hexDigitsOf_lt w d hd) hc
  rw [patternText_eq, List.disjoint_cons_right, List.disjoint_cons_right]
  exact ⟨by decide, by decide, hdigits⟩

theorem separators_disjoint_mnemonicOf (i : Instr) : separators.Disjoint (mnemonicOf i) := by
  cases i <;> simp [mnemonicOf, decodeVecText, separators]

theorem all_ne_of_not_mem {sep : Char} {cs : List Char} (h : sep ∉ cs) : ∀ c ∈ cs, (c != sep) = true :=
  fun _ hc => bne_iff_ne.2 (ne_of_mem_of_not_mem hc h)

theorem takeWhile_ne_append_cons {sep : Char} {front : List Char} (h : sep ∉ front) (back : List Char) :
    (front ++ sep :: back).takeWhile (· != sep) = front := by
  rw [List.takeWhile_append_of_pos (all_ne_of_not_mem h), List.takeWhile_cons_of_neg (by simp), List.append_nil]

theorem dropWhile_ne_append_cons {sep : Char} {front : List Char} (h : sep ∉ front) (back : List Char) :
    (front ++ sep :: back).dropWhile (· != sep) = sep :: back := by
  rw [List.dropWhile_append_of_pos (all_ne_of_not_mem h), List.dropWhile_cons_of_neg (by simp)]

theorem trimBlanks_cons_blank (cs : List Char) : trimBlanks (' ' :: cs) = trimBlanks cs := rfl

/-- A text that begins and ends with other characters than blanks is trimmed already. -/
theorem trimBlanks_eq_self {cs : List Char} (hne : cs ≠ []) (hfirst : cs.head hne ≠ ' ')
    (hlast : cs.getLast hne ≠ ' ') : trimBlanks cs = cs := by
  have hfront : cs.dropWhile (· == ' ') = cs :=
    List.dropWhile_eq_self_iff.2 fun _ => by simpa [List.head_eq_getElem] using hfirst
  have hback : cs.rdropWhile (· == ' ') = cs :=
    List.rdropWhile_eq_self_iff.2 fun _ => by simpa using hlast
  rw [trimBlanks, hfront]
  exact hback

theorem patternText_ne_nil (w : Word) : patternText w ≠ [] := List.cons_ne_nil _ _

theorem getLast_patternText_ne_blank (w : Word) : (patternText w).getLast (patternText_ne_nil w) ≠ ' ' :=
  ne_of_mem_of_not_mem (List.getLast_mem _) (separators_disjoint_patternText w (by decide))

theorem trimBlanks_patternText (w : Word) : trimBlanks (patternText w) = patternText w :=
  trimBlanks_eq_self (patternText_ne_nil w) (by decide : '0' ≠ ' ') (getLast_patternText_ne_blank w)

theorem operationNamed_mnemonicOf (i : Instr) : operationNamed (mnemonicOf i) i.base i.index = some i := by
  cases i <;> rfl

/-- The operands of a written line, from the blank after the mnemonic on. -/
def operandsText (i : Instr) : List Char :=
  ' ' :: patternText i.base ++ ',' :: ' ' :: patternText i.index

theorem requestText_eq (i : Instr) : requestText i = mnemonicOf i ++ operandsText i :=
  List.append_assoc ..

theorem head_mnemonicOf (i : Instr) : ∃ rest, mnemonicOf i = 'd' :: rest := by
  cases i <;> exact ⟨_, rfl⟩

theorem trimBlanks_requestText (i : Instr) : trimBlanks (requestText i) = requestText i := by
  obtain ⟨rest, hrest⟩ := head_mnemonicOf i
  have hne : requestText i ≠ [] := by simp [requestText_eq, operandsText]
  refine trimBlanks_eq_self hne ?_ ?_
  · simp [requestText_eq, hrest]
  · simpa [requestText_eq, operandsText, patternText_ne_nil] using getLast_patternText_ne_blank i.index

/-- A written line holds no comment. -/
theorem takeWhile_ne_semicolon_requestText (i : Instr) : (requestText i).takeWhile (· != ';') = requestText i := by
  have hmnemonic : ';' ∉ mnemonicOf i := separators_disjoint_mnemonicOf i (by decide)
  have hoperand : ∀ w, ';' ∉ patternText w := fun w => separators_disjoint_patternText w (by decide)
  have hline : ';' ∉ requestText i := by simp [requestText_eq, operandsText, hmnemonic, hoperand]
  exact List.takeWhile_eq_self_iff.2 (all_ne_of_not_mem hline)

theorem takeWhile_ne_blank_requestText (i : Instr) : (requestText i).takeWhile (· != ' ') = mnemonicOf i := by
  rw [requestText_eq]
  exact takeWhile_ne_append_cons (separators_disjoint_mnemonicOf i (by decide)) _

theorem dropWhile_ne_blank_requestText (i : Instr) : (requestText i).dropWhile (· != ' ') = operandsText i := by
  rw [requestText_eq]
  exact dropWhile_ne_append_cons (separators_disjoint_mnemonicOf i (by decide)) _

theorem comma_not_mem_baseText (i : Instr) : ',' ∉ ' ' :: patternText i.base :=
  List.not_mem_cons_of_ne_of_not_mem (by decide) (separators_disjoint_patternText i.base (by decide))

/-- Cut at the blank and at the comma, a written line gives back its mnemonic and its two operands. -/
theorem parseRequest_requestText (i : Instr) : parseRequest (requestText i) = some i := by
  have hbase : (operandsText i).takeWhile (· != ',') = ' ' :: patternText i.base :=
    takeWhile_ne_append_cons (comma_not_mem_baseText i) _
  have hindex : (operandsText i).dropWhile (· != ',') = ',' :: ' ' :: patternText i.index :=
    dropWhile_ne_append_cons (comma_not_mem_baseText i) _
  simp only [parseRequest, takeWhile_ne_semicolon_requestText, trimBlanks_requestText, takeWhile_ne_blank_requestText,
    dropWhile_ne_blank_requestText, hbase, hindex, trimBlanks_cons_blank, trimBlanks_patternText,
    parseOperand_patternText, operationNamed_mnemonicOf]

/-- Settles O7: each cut of the parser falls where the writer put its separator. -/
theorem writtenRequestReadsBack : Obligations.WrittenRequestReadsBack := parseRequest_requestText

end Sys2Proof.Machine
end

section
/-! The float decodes: each delivers as many words from its first word address as its op code plus 2, unchanged, or
records the lowest address out of range (R70 to R75). -/

namespace Sys2Proof.Machine

/-! ### Performing an operation, in range and out of range -/

theorem exec_inside {i : Instr} {s : State} (h : firstWordOf i + strideOf i ≤ s.buf.words) :
    exec i s = .next (s.deliver (encode i) (responseInside s.buf i)) := by
  rw [exec_eq_finish, resultOf_eq_responseInside h]
  rfl

theorem exec_outside {i : Instr} {s : State} (h : s.buf.words < firstWordOf i + strideOf i) :
    exec i s = .next (s.raise (encode i) (.bufOutOfRange (BitVec.ofNat 35 (max (firstWordOf i) s.buf.words)))) := by
  rw [exec_eq_finish, resultOf_outside _ i h]
  rfl

/-- Settles O14: the operation's words are the two from `wa0`, which end in the buffer or do not. -/
theorem decodeVec2F32DeliversTwoWordsOrFaults : Obligations.DecodeVec2F32DeliversTwoWordsOrFaults :=
  fun base index _ => ⟨fun hin => exec_inside (i := .decodeVec2F32 base index) hin,
    fun hout => exec_outside (i := .decodeVec2F32 base index) (Nat.lt_succ_of_le hout)⟩

/-- Settles O15: as for two words, with three. -/
theorem decodeVec3F32DeliversThreeWordsOrFaults : Obligations.DecodeVec3F32DeliversThreeWordsOrFaults :=
  fun base index _ => ⟨fun hin => exec_inside (i := .decodeVec3F32 base index) hin,
    fun hout => exec_outside (i := .decodeVec3F32 base index) (Nat.lt_succ_of_le hout)⟩

/-- Settles O16: as for two words, with four. -/
theorem decodeVec4F32DeliversFourWordsOrFaults : Obligations.DecodeVec4F32DeliversFourWordsOrFaults :=
  fun base index _ => ⟨fun hin => exec_inside (i := .decodeVec4F32 base index) hin,
    fun hout => exec_outside (i := .decodeVec4F32 base index) (Nat.lt_succ_of_le hout)⟩

/-! ### The words of a float decode -/

/-- The words of an operation, in the order of their addresses. -/
def wordsOf (b : Buffer) (i : Instr) : List Word := (List.range (strideOf i)).map fun k => b.word (firstWordOf i + k)

/-- The op codes up to 2 are the float decodes': their strides follow the op code, their lanes are the words (R75). -/
theorem float_decode_of_opcode_le {i : Instr} (h : i.opcode.toNat ≤ 2) (b : Buffer) :
    strideOf i = i.opcode.toNat + 2 ∧ responseInside b i = .vecF32 (wordsOf b i) := by
  cases i with
  | decodeVec2F32 base index => exact ⟨rfl, rfl⟩
  | decodeVec3F32 base index => exact ⟨rfl, rfl⟩
  | decodeVec4F32 base index => exact ⟨rfl, rfl⟩
  | decodeVec4U16 base index => exact absurd h (by simp [Instr.opcode])
  | decodeVec4U8Unorm base index => exact absurd h (by simp [Instr.opcode])

theorem getElem?_wordsOf (b : Buffer) {i : Instr} {k : Nat} (hk : k < strideOf i) :
    (wordsOf b i)[k]? = some (b.word (firstWordOf i + k)) := by
  rw [wordsOf, List.getElem?_map, List.getElem?_range hk, Option.map_some]

/-- Settles O20: lane `k` of either result is word `k` from the address they share. -/
theorem floatDecodesAgreeOnCommonLanes : Obligations.FloatDecodesAgreeOnCommonLanes := by
  intro buf i j ri rj hi hj hfirst hri hrj
  obtain ⟨hstride, hwords⟩ := float_decode_of_opcode_le hi buf
  obtain ⟨-, hwords'⟩ := float_decode_of_opcode_le hj buf
  obtain rfl : ri = .vecF32 (wordsOf buf i) := (eq_responseInside_of_resultOf hri).trans hwords
  obtain rfl : rj = .vecF32 (wordsOf buf j) := (eq_responseInside_of_resultOf hrj).trans hwords'
  refine ⟨hstride, rfl, fun k hki hkj => ?_⟩
  calc (wordsOf buf i)[k]? = some (buf.word (firstWordOf i + k)) := getElem?_wordsOf buf hki
    _ = some (buf.word (firstWordOf j + k)) := by rw [hfirst]
    _ = (wordsOf buf j)[k]? := (getElem?_wordsOf buf hkj).symm

/-! ### The round trip from the producer's words -/

/-- In range, the words of an operation are the written ones from its first word address on (R123). -/
theorem wordsOf_ofWords {ws : List Word} {i : Instr} (h : firstWordOf i + strideOf i ≤ ws.length) :
    wordsOf (Buffer.ofWords ws) i = (ws.drop (firstWordOf i)).take (strideOf i) := by
  apply List.ext_getElem
  · simp only [wordsOf, List.length_map, List.length_range, List.length_take, List.length_drop]
    omega
  · intro k hk _
    have hlt : k < strideOf i := by simpa [wordsOf] using hk
    simp only [wordsOf, List.getElem_map, List.getElem_range, List.getElem_take, List.getElem_drop]
    exact Buffer.word_ofWords ws _ (by omega)

/-- A float decode of appended words, all in range, gives them back bit for bit (R70, R74). -/
theorem resultOf_ofWords {ws : List Word} {i : Instr} {a : Nat} (hi : i.opcode.toNat ≤ 2) (ha : firstWordOf i = a)
    (h : a + strideOf i ≤ ws.length) :
    resultOf (Buffer.ofWords ws) i = .ok (.vecF32 ((ws.drop a).take (strideOf i))) := by
  subst ha
  obtain ⟨-, hwords⟩ := float_decode_of_opcode_le hi (Buffer.ofWords ws)
  rw [resultOf_eq_responseInside (by rwa [Buffer.words_ofWords]), hwords, wordsOf_ofWords h]

/-- A base of `4 * m` is word address `m` (R33). -/
theorem firstWord_of_aligned {m : Nat} (hm : 4 * m < 2 ^ 32) (index : Word) (k : Nat) :
    firstWord (BitVec.ofNat 32 (4 * m)) index k = m + index.toNat * k := by
  rw [firstWord, BitVec.toNat_ofNat, Nat.mod_eq_of_lt hm, Nat.mul_div_cancel_left m (by decide)]

/-- Settles O19: with an aligned base the first word address is `m + index * K`. -/
theorem floatDecodesRoundTripTheProducedWords : Obligations.FloatDecodesRoundTripTheProducedWords := by
  intro ws m index hm base buf
  have hfirst : ∀ k, firstWord base index k = m + index.toNat * k := firstWord_of_aligned hm index
  exact ⟨resultOf_ofWords (i := .decodeVec2F32 base index) (by simp [Instr.opcode]) (hfirst 2),
    resultOf_ofWords (i := .decodeVec3F32 base index) (by simp [Instr.opcode]) (hfirst 3),
    resultOf_ofWords (i := .decodeVec4F32 base index) (by simp [Instr.opcode]) (hfirst 4)⟩

end Sys2Proof.Machine
end

section
/-! The packed 16-bit decode: the halfwords as masked and shifted words, and the operation that delivers them (R80,
R81). -/

namespace Sys2Proof.Machine

/-- A word below 65536 has no bit in its upper half: extracted without sign extension (R81). -/
theorem upper_half_eq_zero {w : Word} (h : w.toNat ≤ 0xFFFF) : w.extractLsb' 16 16 = 0 := by
  have hdiv : w.toNat / 2 ^ 16 = 0 := Nat.div_eq_of_lt (Nat.lt_succ_of_le h)
  apply BitVec.eq_of_toNat_eq
  rw [BitVec.extractLsb'_toNat, Nat.shiftRight_eq_div_pow, hdiv]
  rfl

/-- Settles O21: the upper halves are zero because both halfwords are numbers below 65536. -/
theorem halfwordsAreMaskedAndShifted : Obligations.HalfwordsAreMaskedAndShifted := fun w =>
  ⟨lo16_eq_and w, hi16_eq_shift_and w, toNat_lo16 w, toNat_hi16 w, upper_half_eq_zero (toNat_lo16_le w),
    upper_half_eq_zero (toNat_hi16_le w)⟩

/-- Settles O17: as for the two words of `decode_vec2_f32`, with each word delivered as its two halfwords. -/
theorem decodeVec4U16DeliversFourHalfwordsOrFaults : Obligations.DecodeVec4U16DeliversFourHalfwordsOrFaults := by
  intro base index s wa0 req w0 w1
  refine ⟨fun hin => ?_, fun hout => exec_outside (i := .decodeVec4U16 base index) (Nat.lt_succ_of_le hout)⟩
  rw [← hi16_eq_shift_and w0, ← lo16_eq_and w0, ← hi16_eq_shift_and w1, ← lo16_eq_and w1]
  exact exec_inside (i := .decodeVec4U16 base index) hin

end Sys2Proof.Machine
end

section
/-! The unorm decode as an operation: the bytes of the word it reads, low to high, each through `UNORM` (R85, R86). -/

namespace Sys2Proof.Machine

/-- With stride 1 the only word of the operation is at `base div 4 + index` (R33). -/
theorem firstWordOf_decodeVec4U8Unorm (base index : Word) :
    firstWordOf (.decodeVec4U8Unorm base index) = base.toNat / 4 + index.toNat :=
  congrArg (base.toNat / 4 + ·) (Nat.mul_one _)

/-- Settles O18: as for the two words of `decode_vec2_f32`, with one word, delivered as the casts of its bytes. -/
theorem decodeVec4U8UnormDeliversFourBytesOrFaults : Obligations.DecodeVec4U8UnormDeliversFourBytesOrFaults := by
  intro base index s wa0 req w
  have hfirst : firstWordOf (.decodeVec4U8Unorm base index) = wa0 := firstWordOf_decodeVec4U8Unorm base index
  constructor
  · intro hin
    have hexec := exec_inside (i := .decodeVec4U8Unorm base index) (s := s) (by rw [hfirst]; exact hin)
    rw [hexec, responseInside, hfirst]
    rfl
  · intro hout
    have hexec := exec_outside (i := .decodeVec4U8Unorm base index) (s := s)
      (by rw [hfirst]; exact Nat.lt_succ_of_le hout)
    rw [hexec, hfirst, max_eq_left hout]

theorem toNat_byteOf (w : Word) (k : Nat) : (byteOf w k).toNat = w.toNat / 2 ^ (8 * k) % 256 := by
  rw [byteOf, BitVec.extractLsb'_toNat, Nat.shiftRight_eq_div_pow]

/-- A byte is the word shifted down to it and masked (R86). -/
theorem setWidth_byteOf (w : Word) (k : Nat) : (byteOf w k).setWidth 32 = (w >>> (8 * k)) &&& 0xFF := by
  have hmask : ((w >>> (8 * k)) &&& 0xFF).toNat = (w >>> (8 * k)).toNat % 256 :=
    (BitVec.toNat_and ..).trans (Nat.and_two_pow_sub_one_eq_mod _ 8)
  apply BitVec.eq_of_toNat_eq
  rw [hmask, BitVec.toNat_setWidth_of_le (by decide), toNat_byteOf, BitVec.toNat_ushiftRight,
    Nat.shiftRight_eq_div_pow]

theorem byteOf_word (b : Buffer) (wa k : Nat) (hk : k < 4) : byteOf (b.word wa) k = b.byteAt (4 * wa + k) := by
  apply BitVec.eq_of_toNat_eq
  rw [toNat_byteOf, b.toNat_byteAt wa k hk]

/-- Settles O23: the byte is a digit of the word in base 256, and the components are the casts of bytes 0 to 3. -/
theorem bytesAreTakenLowToHigh : Obligations.BytesAreTakenLowToHigh := by
  refine ⟨fun w k hk => ⟨rfl, setWidth_byteOf w k, toNat_byteOf w k, fun b wa => byteOf_word b wa k hk⟩, ?_⟩
  intro buf b x r hr k hk
  rw [eq_responseInside_of_resultOf hr, responseInside, firstWordOf_decodeVec4U8Unorm]
  match k, hk with
  | 0, _ | 1, _ | 2, _ | 3, _ => rfl

end Sys2Proof.Machine
end

section
/-! The integer algorithm of `UNORM`: the exponent it finds, the rounded quotient, and the remainder it rounds by (R87,
R88, R89(b)). -/

namespace Sys2Proof.Machine

/-- `unormNegExp` finds the least exponent that scales `b` up to 255. -/
theorem unormNegExp_spec {b : Nat} (hb : 1 ≤ b) : unormNegExp b ≤ 8 ∧ 255 ≤ b * 2 ^ unormNegExp b ∧
    ∀ n < unormNegExp b, b * 2 ^ n < 255 := by
  have hsome : ((List.range 9).find? fun n => decide (255 ≤ b * 2 ^ n)).isSome :=
    List.find?_isSome.2 ⟨8, by decide, decide_eq_true (by omega)⟩
  obtain ⟨e, he⟩ := Option.isSome_iff_exists.1 hsome
  have hexp : unormNegExp b = e := by rw [unormNegExp, he, Option.getD_some]
  simp only [List.find?_range_eq_some, decide_eq_true_eq, List.mem_range, Bool.not_eq_true', decide_eq_false_iff_not,
    not_le] at he
  obtain ⟨hscaled, hlt, hleast⟩ := he
  rw [hexp]
  exact ⟨Nat.le_of_lt_succ hlt, hscaled, hleast⟩

/-- Every byte but 0 and 255 is scaled at least once, to an even number: twice a number from 128 to 254. -/
theorem exists_half_of_scaled {b : Nat} (hb : 1 ≤ b) (hb' : b ≤ 254) :
    ∃ h, b * 2 ^ unormNegExp b = 2 * h ∧ 128 ≤ h ∧ h ≤ 254 := by
  obtain ⟨-, hge, hleast⟩ := unormNegExp_spec hb
  obtain ⟨e, he⟩ : ∃ e, unormNegExp b = e + 1 := by
    refine Nat.exists_eq_succ_of_ne_zero fun hzero => ?_
    rw [hzero] at hge
    omega
  have hhalf : b * 2 ^ e < 255 := hleast e (by omega)
  have hdouble : b * 2 ^ unormNegExp b = 2 * (b * 2 ^ e) := by rw [he]; ring
  exact ⟨b * 2 ^ e, hdouble, by omega, by omega⟩

theorem unormScaled_eq (b : Nat) : unormScaled b = b * 2 ^ unormNegExp b * 2 ^ 23 := by
  rw [unormScaled, pow_add]
  ring

/-- The scaled numerator gives the quotient by 255 its 24 bits. -/
theorem unormScaled_bounds {b : Nat} (hb : 1 ≤ b) (hb' : b ≤ 255) :
    255 * 2 ^ 23 ≤ unormScaled b ∧ unormScaled b ≤ 508 * 2 ^ 23 := by
  obtain hlast | hlt := hb'.eq_or_lt
  · subst hlast
    decide
  · obtain ⟨h, hhalf, hge, hle⟩ := exists_half_of_scaled hb (Nat.le_of_lt_succ hlt)
    rw [unormScaled_eq, hhalf]
    omega

/-- The quotient is rounded to the nearest integer: the error is less than half of the divisor. -/
theorem unormMantissa_nearest (b : Nat) :
    255 * unormMantissa b ≤ unormScaled b + 127 ∧ unormScaled b ≤ 255 * unormMantissa b + 127 := by
  unfold unormMantissa
  split <;> omega

theorem unormMantissa_bounds {b : Nat} (hb : 1 ≤ b) (hb' : b ≤ 255) :
    2 ^ 23 ≤ unormMantissa b ∧ unormMantissa b < 2 ^ 24 := by
  obtain ⟨hlow, hhigh⟩ := unormScaled_bounds hb hb'
  obtain ⟨hupper, hlower⟩ := unormMantissa_nearest b
  omega

/-- Settles O25: no tie, because twice a remainder is even; the other clauses are the lemmas above. -/
theorem unormAlgorithmIsNormalised : Obligations.UnormAlgorithmIsNormalised := by
  intro b hb hb'
  obtain ⟨hle, hscaled, hleast⟩ := unormNegExp_spec hb
  exact ⟨hle, hscaled, fun n hn => le_of_not_gt fun hlt => absurd (hleast n hlt) (by omega), by omega,
    unormMantissa_bounds hb hb'⟩

/-- Settles O26: the algorithm of R87 is evaluated on each byte and compared with the table's entry. -/
theorem unormEqualsTheSpecTable : Obligations.UnormEqualsTheSpecTable := by
  unfold Obligations.UnormEqualsTheSpecTable
  decide +kernel

/-- `2^24` is 1 modulo 255, so the remainder is half of the scaled byte, which is above half of 255: every byte but 0
and 255 is rounded up. -/
theorem unormMantissa_rounds_up {b : Nat} (hb : 1 ≤ b) (hb' : b ≤ 254) :
    unormScaled b % 255 ≠ 0 ∧ unormScaled b < 255 * unormMantissa b ∧
      255 * (unormMantissa b - 1) < unormScaled b := by
  obtain ⟨h, hhalf, hge, hle⟩ := exists_half_of_scaled hb hb'
  have hrem : unormScaled b % 255 = h := by
    rw [unormScaled_eq, hhalf]
    omega
  have hup : unormMantissa b = unormScaled b / 255 + 1 := if_pos (by omega)
  omega

end Sys2Proof.Machine
end

section
/-! `UNORM` as a binary32 value, in units of `2^-149`: its fields, its distance from b/255, and the named properties
(R87, R89). The layout of binary32 is presumed (G1, log 11). -/

namespace Sys2Proof.Machine

/-! ### The value of a pattern -/

/-- The fields of a pattern without sign. -/
theorem f32_fields {p : Word} {e f : Nat} (he : e < 2 ^ 8) (hf : f < 2 ^ 23) (hp : p.toNat = e * 2 ^ 23 + f) :
    f32Negative p = false ∧ f32Exponent p = e ∧ f32Fraction p = f := by
  refine ⟨Nat.testBit_lt_two_pow (by omega), ?_, ?_⟩
  · rw [f32Exponent_eq]
    omega
  · rw [f32Fraction_eq]
    omega

/-- A normal pattern with significand `m` and exponent field `e + 1` has the value `m * 2^e`. -/
theorem f32Units_of_toNat {p : Word} {e m : Nat} (he : e + 1 < 2 ^ 8) (hm : 2 ^ 23 ≤ m) (hm' : m < 2 ^ 24)
    (hp : p.toNat = (e + 1) * 2 ^ 23 + (m - 2 ^ 23)) : f32Units p = m * 2 ^ e := by
  obtain ⟨hpos, hexp, hfrac⟩ := f32_fields he (by omega) hp
  have hmag : f32Magnitude p = m * 2 ^ e := by
    rw [f32Magnitude, hexp, hfrac, if_neg (Nat.succ_ne_zero e), Nat.add_sub_cancel' hm, Nat.add_sub_cancel]
  simp [f32Units, hpos, hmag]

/-- The grid of binary32: at or above `2^23 * 2^k` every magnitude is a multiple of `2^k`. -/
theorem f32Magnitude_grid (p : Word) (k : Nat) : f32Magnitude p < 2 ^ 23 * 2 ^ k ∨ 2 ^ k ∣ f32Magnitude p := by
  have hfrac : f32Fraction p < 2 ^ 23 := (p.extractLsb' 0 23).isLt
  unfold f32Magnitude
  split
  · exact .inl (hfrac.trans_le (Nat.le_mul_of_pos_right _ (Nat.two_pow_pos k)))
  · rcases le_or_gt k (f32Exponent p - 1) with hge | hlt
    · exact .inr (Dvd.dvd.mul_left (pow_dvd_pow 2 hge) _)
    · left
      calc (2 ^ 23 + f32Fraction p) * 2 ^ (f32Exponent p - 1)
          < 2 ^ 24 * 2 ^ (f32Exponent p - 1) := Nat.mul_lt_mul_of_pos_right (by omega) (Nat.two_pow_pos _)
        _ = 2 ^ 23 * 2 ^ (f32Exponent p - 1 + 1) := by ring
        _ ≤ 2 ^ 23 * 2 ^ k := Nat.mul_le_mul_left _ (Nat.pow_le_pow_right (by decide) hlt)

theorem f32Units_grid (p : Word) (k : Nat) : f32Units p < 2 ^ 23 * 2 ^ k ∨ 2 ^ k ∣ f32Units p := by
  have hpow : (0 : Int) < 2 ^ 23 * 2 ^ k := by positivity
  unfold f32Units
  rcases f32Magnitude_grid p k with hlt | hdvd
  · left
    have hcast : (f32Magnitude p : Int) < 2 ^ 23 * 2 ^ k := by exact_mod_cast hlt
    split <;> omega
  · right
    have hcast : (2 ^ k : Int) ∣ f32Magnitude p := by exact_mod_cast hdvd
    split
    · exact hcast.neg_right
    · exact hcast

/-! ### The value of `UNORM` -/

theorem toNat_unorm {b : Byte} (hb : 1 ≤ b.toNat) :
    (unorm b).toNat = (126 - unormNegExp b.toNat + 1) * 2 ^ 23 + (unormMantissa b.toNat - 2 ^ 23) := by
  have hne : b ≠ 0 := by
    rintro rfl
    exact absurd hb (by decide)
  obtain ⟨hexp, -, -⟩ := unormNegExp_spec hb
  obtain ⟨hlow, hhigh⟩ := unormMantissa_bounds hb (Nat.le_of_lt_succ b.isLt)
  rw [unorm, if_neg hne, BitVec.toNat_ofNat]
  omega

/-- The value of `UNORM(b)` is the rounded quotient in units of the last place. -/
theorem f32Units_unorm {b : Byte} (hb : 1 ≤ b.toNat) :
    f32Units (unorm b) = unormMantissa b.toNat * 2 ^ (126 - unormNegExp b.toNat) := by
  obtain ⟨hlow, hhigh⟩ := unormMantissa_bounds hb (Nat.le_of_lt_succ b.isLt)
  exact f32Units_of_toNat (by omega) hlow hhigh (toNat_unorm hb)

/-- In the same units b/255 is the scaled numerator, over 255. -/
theorem unorm_exact_value {b : Byte} (hb : 1 ≤ b.toNat) :
    (b.toNat : Int) * 2 ^ 149 = unormScaled b.toNat * 2 ^ (126 - unormNegExp b.toNat) := by
  obtain ⟨hexp, -, -⟩ := unormNegExp_spec hb
  have hsum : 149 = 23 + unormNegExp b.toNat + (126 - unormNegExp b.toNat) := by omega
  rw [unormScaled, Nat.cast_mul, Nat.cast_pow, Nat.cast_ofNat, mul_assoc, ← pow_add, ← hsum]

/-! ### The nearest value -/

theorem abs_error_mul {m S u : Int} (hu : 0 < u) : |255 * (m * u) - S * u| = |255 * m - S| * u := by
  rw [← mul_assoc, ← sub_mul, abs_mul, abs_of_pos hu]

/-- Among the values `v` of the grid, `m * u` is the only one as near to `S * u / 255`: the other multiples of `u` are
off by more than half of `u`, and what lies below `2^23 * u` is further than that multiple. -/
theorem nearest_on_grid {m S u v : Int} (hu : 0 < u) (hS : 255 * 2 ^ 23 ≤ S) (hupper : 255 * m ≤ S + 127)
    (hlower : S ≤ 255 * m + 127) (hv : v < 2 ^ 23 * u ∨ u ∣ v) :
    v = m * u ∨ |255 * (m * u) - S * u| < |255 * v - S * u| := by
  rw [abs_error_mul hu]
  rcases hv with hbelow | ⟨j, rfl⟩
  · right
    have hgap : |255 * m - S| ≤ S - 255 * 2 ^ 23 := abs_le.2 (by omega)
    calc |255 * m - S| * u ≤ (S - 255 * 2 ^ 23) * u := mul_le_mul_of_nonneg_right hgap hu.le
      _ < S * u - 255 * v := by linarith
      _ ≤ |255 * v - S * u| := (le_abs_self _).trans_eq (abs_sub_comm _ _)
  · rcases eq_or_ne j m with rfl | hne
    · exact .inl (mul_comm u j)
    · right
      have hnear : |255 * m - S| ≤ 127 := abs_le.2 (by omega)
      have hfar : 127 < |255 * j - S| := lt_abs.2 (by omega)
      calc |255 * m - S| * u < |255 * j - S| * u := mul_lt_mul_of_pos_right (hnear.trans_lt hfar) hu
        _ = |255 * (u * j) - S * u| := by rw [mul_comm u j, abs_error_mul hu]

/-- Every value of a pattern is that of `UNORM(b)`, or further from b/255. -/
theorem f32Units_unorm_nearest (b : Byte) (p : Word) : f32Units p = f32Units (unorm b) ∨
    |255 * f32Units (unorm b) - b.toNat * 2 ^ 149| < |255 * f32Units p - b.toNat * 2 ^ 149| := by
  rcases Nat.eq_zero_or_pos b.toNat with hzero | hb
  · obtain rfl : b = 0 := BitVec.eq_of_toNat_eq hzero
    have hvalue : f32Units (unorm 0) = 0 := by decide
    rw [hvalue, hzero]
    refine (eq_or_ne (f32Units p) 0).imp_right fun hne => ?_
    simpa using hne
  · obtain ⟨hscaled, -⟩ := unormScaled_bounds hb (Nat.le_of_lt_succ b.isLt)
    obtain ⟨hupper, hlower⟩ := unormMantissa_nearest b.toNat
    rw [f32Units_unorm hb, unorm_exact_value hb]
    exact nearest_on_grid (by positivity) (by omega) (by omega) (by omega) (f32Units_grid p _)

theorem f32Negative_unorm (b : Byte) : f32Negative (unorm b) = false := by
  have hle := toNat_unorm_le b
  exact Nat.testBit_lt_two_pow (by omega)

/-- Settles O24: no pattern is nearer, and one as near has the same value. -/
theorem unormIsTheNearestBinary32 : Obligations.UnormIsTheNearestBinary32 := by
  intro b p _
  obtain ⟨hfinite, -, -⟩ := f32_range_of_toNat_le (toNat_unorm_le b)
  refine ⟨hfinite, f32Negative_unorm b, ?_⟩
  rcases f32Units_unorm_nearest b p with heq | hlt
  · rw [heq]
    exact ⟨le_rfl, fun _ => rfl⟩
  · exact ⟨hlt.le, fun heq => absurd heq hlt.ne'⟩

/-! ### The named properties -/

/-- (b) of R89: bytes 1 to 254 are inexact, rounded up, and by less than the step to the pattern before. -/
theorem unorm_rounds_up {b : Byte} (hb : 1 ≤ b.toNat) (hb' : b.toNat ≤ 254) : unormInexact b = true ∧
    (b.toNat : Int) * 2 ^ 149 < 255 * f32Units (unorm b) ∧
    255 * f32Units (unorm b - 1) < (b.toNat : Int) * 2 ^ 149 := by
  obtain ⟨hinexact, hup, hbefore⟩ := unormMantissa_rounds_up hb hb'
  obtain ⟨hscaled, -⟩ := unormScaled_bounds hb (Nat.le_of_lt_succ b.isLt)
  obtain ⟨-, hmantissa⟩ := unormMantissa_bounds hb (Nat.le_of_lt_succ b.isLt)
  have hpattern := toNat_unorm hb
  have hone : (1 : Word).toNat = 1 := rfl
  have hsub : (unorm b - 1).toNat = (unorm b).toNat - 1 :=
    BitVec.toNat_sub_of_le (BitVec.le_def.2 (by omega))
  have hunits : f32Units (unorm b - 1) = (unormMantissa b.toNat - 1 : Nat) * 2 ^ (126 - unormNegExp b.toNat) :=
    f32Units_of_toNat (by omega) (by omega) (by omega) (by omega)
  have hpos : (0 : Int) < 2 ^ (126 - unormNegExp b.toNat) := by positivity
  refine ⟨decide_eq_true hinexact, ?_, ?_⟩
  · rw [f32Units_unorm hb, unorm_exact_value hb, ← mul_assoc]
    exact mul_lt_mul_of_pos_right (by omega) hpos
  · rw [hunits, unorm_exact_value hb, ← mul_assoc]
    exact mul_lt_mul_of_pos_right (by omega) hpos

/-- A larger byte is scaled no further than a smaller one. -/
theorem unormNegExp_antitone {a b : Nat} (ha : 1 ≤ a) (hab : a ≤ b) : unormNegExp b ≤ unormNegExp a := by
  obtain ⟨-, hge, -⟩ := unormNegExp_spec ha
  obtain ⟨-, -, hleast⟩ := unormNegExp_spec (ha.trans hab)
  have hscaled : 255 ≤ b * 2 ^ unormNegExp a := hge.trans (Nat.mul_le_mul_right _ hab)
  exact le_of_not_gt fun hlt => absurd (hleast _ hlt) (by omega)

/-- (c) of R89 on patterns: the exponent field grows, or it stays and the significand grows. -/
theorem toNat_unorm_lt {a b : Byte} (hab : a.toNat < b.toNat) : (unorm a).toNat < (unorm b).toNat := by
  have hb : 1 ≤ b.toNat := by omega
  have hpattern := toNat_unorm hb
  rcases Nat.eq_zero_or_pos a.toNat with hzero | ha
  · obtain rfl : a = 0 := BitVec.eq_of_toNat_eq hzero
    have hvalue : (unorm 0).toNat = 0 := by decide
    omega
  · have hpattern' := toNat_unorm ha
    obtain ⟨hlow, hhigh⟩ := unormMantissa_bounds ha (Nat.le_of_lt_succ a.isLt)
    obtain ⟨hexp, -⟩ := unormNegExp_spec ha
    rcases (unormNegExp_antitone ha hab.le).lt_or_eq with hlt | heq
    · omega
    · obtain ⟨-, hlower⟩ := unormMantissa_nearest b.toNat
      obtain ⟨hupper, -⟩ := unormMantissa_nearest a.toNat
      have hstep : unormScaled a.toNat + 2 ^ 23 ≤ unormScaled b.toNat := by
        calc unormScaled a.toNat + 2 ^ 23 ≤ unormScaled a.toNat + 2 ^ (23 + unormNegExp a.toNat) := by
              gcongr <;> omega
          _ = (a.toNat + 1) * 2 ^ (23 + unormNegExp a.toNat) := by rw [unormScaled]; ring
          _ ≤ unormScaled b.toNat := by
              rw [unormScaled, heq]
              exact Nat.mul_le_mul_right _ hab
      omega

/-- Half a unit of the last place, the largest error of `UNORM`, is far less than half of the bytes' step 1/255. -/
theorem f32Units_unorm_close (b : Byte) : |255 * f32Units (unorm b) - b.toNat * 2 ^ 149| ≤ 127 * 2 ^ 126 := by
  rcases Nat.eq_zero_or_pos b.toNat with hzero | hb
  · obtain rfl : b = 0 := BitVec.eq_of_toNat_eq hzero
    decide
  · obtain ⟨hupper, hlower⟩ := unormMantissa_nearest b.toNat
    have hnear : |255 * (unormMantissa b.toNat : Int) - unormScaled b.toNat| ≤ 127 := abs_le.2 (by omega)
    have hunit : (2 : Int) ^ (126 - unormNegExp b.toNat) ≤ 2 ^ 126 := pow_le_pow_right₀ (by decide) (by omega)
    rw [f32Units_unorm hb, unorm_exact_value hb, abs_error_mul (by positivity)]
    exact mul_le_mul hnear hunit (by positivity) (by decide)

/-- (c) of R89 on values: the bytes' exact values are further apart than both errors together. -/
theorem f32Units_unorm_lt {a b : Byte} (hab : a.toNat < b.toNat) : f32Units (unorm a) < f32Units (unorm b) := by
  have ha := (abs_le.1 (f32Units_unorm_close a)).2
  have hb := (abs_le.1 (f32Units_unorm_close b)).1
  omega

/-- (d) of R89: every byte but 0 has a normal pattern, because its exponent field is from 119 to 127. -/
theorem f32Class_unorm {b : Byte} (hb : 1 ≤ b.toNat) : f32Class (unorm b) = .normal := by
  obtain ⟨hneg, -⟩ := unormNegExp_spec hb
  obtain ⟨hlow, hhigh⟩ := unormMantissa_bounds hb (Nat.le_of_lt_succ b.isLt)
  obtain ⟨-, hexp, -⟩ := f32_fields (by omega) (by omega) (toNat_unorm hb)
  rw [f32Class, hexp, if_neg (by omega), if_neg (by omega)]

/-- (d) of R89: `UNORM(1)` is the least pattern but that of 0. -/
theorem toNat_unorm_one_le {b : Byte} (hb : 1 ≤ b.toNat) : (unorm 1).toNat ≤ (unorm b).toNat := by
  rcases hb.eq_or_lt with heq | hlt
  · rw [show b = 1 from BitVec.eq_of_toNat_eq heq.symm]
  · exact (toNat_unorm_lt (a := 1) hlt).le

/-- (e) of R89, because the patterns are strictly increasing. -/
theorem unorm_injective : Function.Injective unorm := by
  intro a b h
  rcases lt_trichotomy a.toNat b.toNat with hlt | heq | hgt
  · exact absurd (congrArg BitVec.toNat h) (toNat_unorm_lt hlt).ne
  · exact BitVec.eq_of_toNat_eq heq
  · exact absurd (congrArg BitVec.toNat h) (toNat_unorm_lt hgt).ne'

/-- Settles O27: the particular patterns are evaluated, the other clauses are the lemmas above. -/
theorem unormHasTheNamedProperties : Obligations.UnormHasTheNamedProperties := by
  refine ⟨by decide, ⟨by decide, by decide, fun b hb hb' => unorm_rounds_up hb hb'⟩,
    fun a b hab => ⟨toNat_unorm_lt hab, f32Units_unorm_lt hab⟩, fun b => ?_, by decide,
    fun a b h => unorm_injective h⟩
  obtain ⟨-, hnonneg, hone⟩ := f32_range_of_toNat_le (toNat_unorm_le b)
  refine ⟨f32Negative_unorm b, hnonneg, hone, fun hne => ?_⟩
  have hb : 1 ≤ b.toNat := Nat.pos_of_ne_zero fun hzero => hne (BitVec.eq_of_toNat_eq hzero)
  exact ⟨f32Class_unorm hb, toNat_unorm_one_le hb⟩

end Sys2Proof.Machine
end

section
/-! The two faults (60_exceptions.md): a reserved op code, and a word out of range at the address that the base rounded
down to a multiple of 4 gives; what raising one does, and that no run forgets it (R102 to R106). -/

namespace Sys2Proof.Machine

/-! ### Raising -/

/-- A run only adds to the fault record, at its end: the entries of the requests it serves (R105). -/
theorem runs_faults_prefix {k : Nat} {s t : State} (h : Runs k s t) : s.faults <+: t.faults := by
  obtain ⟨served, hserves⟩ := runs_serves_list h
  exact ⟨faultsTo s.buf served, hserves.faults.symm⟩

/-- Settles O29: the fields by their lemmas, the units by the frame of raising, the codes by the table. -/
theorem raisedFaultIsRecordedForTheWholeRun : Obligations.RaisedFaultIsRecordedForTheWholeRun := by
  refine ⟨fun w f s => ?_, fun _ => ⟨rfl, rfl⟩, fun _ => ⟨rfl, rfl⟩, fun _ _ _ => runs_faults_prefix⟩
  exact ⟨raise_faults w f s, raise_answered w f s, raise_buf w f s, raise_schedule w f s, raise_units_length w f s,
    fun _ => raise_unit_of_ne_active w f s, fun _ => raise_unit_active w f s⟩

/-! ### Which fault a request raises -/

theorem performRequest_of_decode {w : Request} {i : Instr} (h : decode w = .ok i) (s : State) :
    performRequest w s = exec i s := by
  rw [performRequest, h]

theorem performRequest_of_reserved_op {w : Request} (h : 5 ≤ (requestOp w).toNat) (s : State) :
    performRequest w s = .next (s.raise w (.illegalOp (requestOp w))) := by
  rw [performRequest, decode_of_reserved_op h]
  rfl

/-- Settles O30: the decoder rejects the word whatever the state. -/
theorem reservedOpRaisesIllegalOp : Obligations.ReservedOpRaisesIllegalOp :=
  fun _ s h => performRequest_of_reserved_op h s

/-- Where an operation ends above `n`, its lowest address not below `n` is its first one or `n` itself (R102). -/
theorem max_mem_wordsRead {i : Instr} {n : Nat} (h : n < firstWordOf i + strideOf i) :
    max (firstWordOf i) n ∈ wordsRead i := by
  have hpos := strideOf_pos i
  rw [mem_wordsRead]
  omega

/-- Settles O31: an operation's addresses rise from its first one, and each of them fits the fault's 35 bits. -/
theorem outOfRangeRecordsTheLowestAddress : Obligations.OutOfRangeRecordsTheLowestAddress := by
  refine fun i s => ⟨fun hin => ⟨_, exec_inside hin⟩, fun hout => ⟨_, exec_outside hout, ?_⟩⟩
  have hmem := max_mem_wordsRead hout
  have hle := wordsRead_le hmem
  rw [BitVec.toNat_ofNat, Nat.mod_eq_of_lt (by omega)]
  refine ⟨rfl, hmem, fun x hx hxout => max_le ?_ hxout⟩
  exact ((mem_wordsRead i x).1 hx).1

/-- Settles O32: a reserved op code is rejected before a read is made; a legal request records nothing in range. -/
theorem faultPriorityIsOpThenLowestAddress : Obligations.FaultPriorityIsOpThenLowestAddress := by
  intro w s t h
  constructor
  · intro hop
    rw [performRequest_of_reserved_op hop] at h
    cases h
    rfl
  · intro i hi f hf
    rw [performRequest_of_decode hi] at h
    rcases le_or_gt (firstWordOf i + strideOf i) s.buf.words with hin | hout
    · rw [exec_inside hin] at h
      cases h
      simp at hf
    · rw [exec_outside hout] at h
      cases h
      obtain ⟨-, hfault⟩ : encode i = w ∧ _ = f := by simpa using hf
      exact hfault.symm

/-! ### A misaligned base -/

/-- Clearing the two low bits of an operand rounds it down to a multiple of 4 (R103). -/
theorem toNat_clear_low_two (b : Word) : (b &&& 0xFFFFFFFC).toNat = b.toNat - b.toNat % 4 := by
  have hb := b.isLt
  have hmask : (0xFFFFFFFC : Word) = BitVec.allOnes 32 <<< 2 := by decide
  rw [hmask, ← BitVec.shiftLeft_ushiftRight, BitVec.toNat_shiftLeft, BitVec.toNat_ushiftRight, Nat.shiftLeft_eq,
    Nat.shiftRight_eq_div_pow]
  omega

/-- The first word address does not see the two low bits of the base (R33, R103). -/
theorem firstWord_clear_low_two (base index : Word) (k : Nat) :
    firstWord (base &&& 0xFFFFFFFC) index k = firstWord base index k := by
  have hdiv : (base.toNat - base.toNat % 4) / 4 = base.toNat / 4 := by omega
  rw [firstWord, toNat_clear_low_two, hdiv, firstWord]

/-- The same operation with its base rounded down to a multiple of 4 (R103). -/
def roundBaseDown : Instr → Instr
  | .decodeVec2F32 base index => .decodeVec2F32 (base &&& 0xFFFFFFFC) index
  | .decodeVec3F32 base index => .decodeVec3F32 (base &&& 0xFFFFFFFC) index
  | .decodeVec4F32 base index => .decodeVec4F32 (base &&& 0xFFFFFFFC) index
  | .decodeVec4U16 base index => .decodeVec4U16 (base &&& 0xFFFFFFFC) index
  | .decodeVec4U8Unorm base index => .decodeVec4U8Unorm (base &&& 0xFFFFFFFC) index

/-- The pure function of an operation uses its base for the first word address alone. -/
theorem resultOf_roundBaseDown (b : Buffer) (i : Instr) : resultOf b (roundBaseDown i) = resultOf b i := by
  cases i <;>
    simp only [roundBaseDown, resultOf, vec2F32, vec3F32, vec4F32, vec4U16, vec4U8Unorm, firstWord_clear_low_two]

theorem exec_roundBaseDown_finishes_alike (i : Instr) (s : State) :
    ∃ res, exec (roundBaseDown i) s = s.finish (encode (roundBaseDown i)) res ∧
      exec i s = s.finish (encode i) res :=
  ⟨resultOf s.buf i, resultOf_roundBaseDown s.buf i ▸ exec_eq_finish _ s, exec_eq_finish i s⟩

/-- Settles O13: for each of the five, the operation and its rounded-down form have one result. -/
theorem misalignedBaseActsAsItsMultipleOfFour : Obligations.MisalignedBaseActsAsItsMultipleOfFour := fun b x s =>
  ⟨toNat_clear_low_two b,
    exec_roundBaseDown_finishes_alike (.decodeVec2F32 b x) s,
    exec_roundBaseDown_finishes_alike (.decodeVec3F32 b x) s,
    exec_roundBaseDown_finishes_alike (.decodeVec4F32 b x) s,
    exec_roundBaseDown_finishes_alike (.decodeVec4U16 b x) s,
    exec_roundBaseDown_finishes_alike (.decodeVec4U8Unorm b x) s⟩

end Sys2Proof.Machine
end

section
/-! Waiting and progress: a step with nothing to serve moves the schedule alone, and every other step also serves a
request, so a run ends within as many steps as there are schedule entries and requests (R121, R128). -/

namespace Sys2Proof.Machine

/-! ### Waiting -/

theorem takeRequest_eq_none {s : State} (h : ∀ d, s.units[s.turn]? = some d → d.outstanding = []) :
    s.takeRequest = none := by
  cases htake : s.takeRequest with
  | none => rfl
  | some p =>
    obtain ⟨d, rest, hd, hw, -⟩ := takeRequest_some s p.2 p.1 htake
    rw [h d hd] at hw
    cases hw

/-- Settles O38: the step takes no request, so it waits. -/
theorem unitWithoutARequestWaits : Obligations.UnitWithoutARequestWaits := fun _ h =>
  step_of_takeRequest_none (takeRequest_eq_none h)

/-- Past the schedule's end the turn goes to a unit with an outstanding request where there is one (R23, log 2). -/
theorem outstanding_eq_nil_of_turn_idle {s : State} (hsched : s.schedule = [])
    (hidle : ∀ d, s.units[s.turn]? = some d → d.outstanding = []) : s.outstanding = [] := by
  have hturn : s.turn = s.units.findIdx (fun d => !d.outstanding.isEmpty) := by rw [State.turn, hsched]
  refine List.flatMap_eq_nil_iff.2 fun d hd => by_contra fun hne => ?_
  have hlt : s.turn < s.units.length := by
    rw [hturn]
    exact List.findIdx_lt_length_of_exists ⟨d, hd, by simpa using hne⟩
  have hfound : s.units[s.turn].outstanding ≠ [] := by
    have := List.findIdx_getElem (w := hturn ▸ hlt)
    simpa [hturn] using this
  exact hfound (hidle _ (List.getElem?_eq_getElem hlt))

/-! ### Progress -/

/-- The steps within which a run from this state ends: the schedule's entries and the outstanding requests (R128). -/
def State.work (s : State) : Nat := s.schedule.length + s.outstanding.length

/-- Every step uses up a schedule entry or serves a request, while there is one of either. -/
theorem step_work {s t : State} (h : step s = .next t) : t.work ≤ s.work - 1 := by
  rcases step_serves s t h with ⟨rfl, hidle⟩ | ⟨w, d, e, hd, hw, -, hunits, hsched, -⟩
  · cases hs : s.schedule with
    | nil => simp [State.work, hs, outstanding_eq_nil_of_turn_idle hs hidle]
    | cons u us => simp [State.work, hs]
  · have hperm := (outstanding_set s.units s.turn d e w hd hw).length_eq
    rw [← hunits, List.length_cons] at hperm
    have htail := s.schedule.length_tail
    rw [← hsched] at htail
    unfold State.work State.outstanding
    omega

theorem exists_ended_run : ∀ (n : Nat) (s : State), s.work ≤ n → ∃ t, Runs n s t ∧ Ended t := by
  intro n
  induction n with
  | zero =>
    intro s hs
    refine ⟨s, (runs_zero s s).2 rfl, List.length_eq_zero_iff.1 ?_⟩
    unfold State.work at hs
    omega
  | succ n ih =>
    intro s hs
    obtain ⟨u, hu⟩ := step_answers s
    have hwork := step_work hu
    obtain ⟨t, ht, hend⟩ := ih u (by omega)
    exact ⟨t, (runs_succ n s t).2 ⟨u, hu, ht⟩, hend⟩

/-- Settles O47: each step lowers the bound by one at least. -/
theorem everyRunEnds : Obligations.EveryRunEnds := fun s => exists_ended_run s.work s le_rfl

end Sys2Proof.Machine
end

section
/-! The books at the end of a run account for every request, and valid requests leave no fault there (R124, R129,
R130). -/

namespace Sys2Proof.Machine

/-! ### Accounting -/

/-- Each request has a response or an entry in the fault record, and only one of them (R18). -/
theorem answersTo_append_faultsTo_perm (b : Buffer) (ws : List Request) :
    ((answersTo b ws).map Prod.fst ++ (faultsTo b ws).map FaultEntry.request).Perm ws := by
  induction ws with
  | nil => exact .nil
  | cons w ws ih =>
    rw [← List.singleton_append, answersTo_append, faultsTo_append]
    cases h : outcomeOf b w with
    | ok r =>
      rw [answersTo_singleton_ok b w h, faultsTo_singleton_ok b w h]
      exact ih.cons w
    | error f =>
      rw [answersTo_singleton_error b w h, faultsTo_singleton_error b w h]
      exact List.perm_middle.trans (ih.cons w)

/-- Settles O44: the books grow by the outcomes of what was outstanding, which account for each request once. -/
theorem endedRunAnswersOrRecordsEveryRequest : Obligations.EndedRunAnswersOrRecordsEveryRequest := by
  intro k s t hrun hend
  obtain ⟨hans, hflt⟩ := books_of_ended_run hrun hend
  refine ((hans.map Prod.fst).append (hflt.map FaultEntry.request)).trans ?_
  simp only [List.map_append, List.append_assoc]
  refine .append_left _ ((List.perm_append_comm_assoc ..).trans (.append_left _ ?_))
  exact answersTo_append_faultsTo_perm s.buf s.outstanding

/-! ### Valid requests -/

theorem outcomeOf_of_validRequest {b : Buffer} {w : Request} (h : ValidRequest b w) : ∃ r, outcomeOf b w = .ok r := by
  obtain ⟨i, hi, -, hin⟩ := h
  obtain ⟨r, hr⟩ := resultOf_inside b i hin
  exact ⟨r, by rw [outcomeOf, hi]; exact hr⟩

theorem faultsTo_eq_nil_of_valid {b : Buffer} {ws : List Request} (h : ∀ w ∈ ws, ValidRequest b w) :
    faultsTo b ws = [] := by
  refine List.filterMap_eq_nil_iff.2 fun w hw => ?_
  obtain ⟨r, hr⟩ := outcomeOf_of_validRequest (h w hw)
  rw [faultEntryOf, hr]

/-- Settles O46: what a run serves and what it leaves were outstanding at its start, on the same buffer. -/
theorem validRequestsNeverFault : Obligations.ValidRequestsNeverFault := by
  intro k s t hvalid hrun
  obtain ⟨served, hbuf, hperm, -, hflt⟩ := runs_serves_list hrun
  have hsplit : ∀ w, w ∈ served ∨ w ∈ t.outstanding → ValidRequest s.buf w := fun w hw =>
    hvalid w (hperm.mem_iff.2 (List.mem_append.2 hw))
  rw [faultsTo_eq_nil_of_valid fun w hw => hsplit w (.inl hw), List.append_nil] at hflt
  refine ⟨hflt, fun w hw => ?_, fun hend hnone => ⟨hend, hflt.trans hnone⟩⟩
  rw [hbuf]
  exact hsplit w (.inr hw)

end Sys2Proof.Machine
end

section
/-! The producer's moves: refused while a request is outstanding, and otherwise a change of the buffer alone (R123,
R125). -/

namespace Sys2Proof.Machine

theorem appendWord_eq_next {s : State} (h : s.outstanding = []) (v : Word) :
    s.appendWord v = .next { s with buf := s.buf.append v } :=
  if_pos h

theorem rewriteWord_eq_next {s : State} (h : s.outstanding = []) {wa : Nat} (hwa : wa < s.buf.words) (v : Word) :
    s.rewriteWord wa v = .next { s with buf := { s.buf with bytes := s.buf.bytes.writeWord wa v } } :=
  (if_neg (not_not_intro h)).trans (if_pos hwa)

theorem rewriteByte_eq_next {s : State} (h : s.outstanding = []) {n : Nat} (hn : n < 4 * s.buf.words) (v : Byte) :
    s.rewriteByte n v = .next { s with buf := { s.buf with bytes := s.buf.bytes.write n v } } :=
  (if_neg (not_not_intro h)).trans (if_pos hn)

theorem Buffer.byteAt_eq_read (b : Buffer) (n : Nat) : b.byteAt n = b.bytes.read n :=
  (byteViewIsLittleEndian b n).symm

/-- The byte stored is the byte read, every other byte reads as before. -/
theorem Buffer.byteAt_write (b : Buffer) (hb : b.wf = true) (n : Nat) (v : Byte) (x : Nat) :
    Buffer.byteAt { b with bytes := b.bytes.write n v } x = if x = n then v else b.byteAt x := by
  obtain ⟨hbytes, -⟩ := (Buffer.wf_iff b).1 hb
  rw [Buffer.byteAt_eq_read, Buffer.byteAt_eq_read, Memory.read_write _ hbytes]

/-- Settles O50: each move's next state differs in the buffer, whose contents are the laws' read after write. -/
theorem producerWritesOnlyBetweenRuns : Obligations.ProducerWritesOnlyBetweenRuns := by
  intro v y n s
  refine ⟨fun hout => ⟨if_neg hout, if_pos hout, if_pos hout⟩, fun hout hwf => ⟨?_, fun hn => ?_, fun hn => ?_⟩⟩
  · exact ⟨_, appendWord_eq_next hout v, s.buf.wf_append hwf v, rfl, rfl, s.buf.word_append hwf v⟩
  · obtain ⟨hbytes, -⟩ := (Buffer.wf_iff s.buf).1 hwf
    exact ⟨_, rewriteWord_eq_next hout hn v, s.buf.wf_rewriteWord hwf n hn v, rfl, rfl,
      s.buf.word_writeWord hbytes _ n v⟩
  · exact ⟨_, rewriteByte_eq_next hout hn y, s.buf.wf_rewriteByte hwf n hn y, rfl, rfl, s.buf.byteAt_write hwf n y⟩

end Sys2Proof.Machine
end

section
/-! The launch state, and the determinism test from it (R130, R132). -/

namespace Sys2Proof.Machine

theorem unitsIdle_launch (b : Buffer) (queues : List (List Request)) (schedule : List Nat) :
    UnitsIdle (State.launch b queues schedule) := by
  simp [UnitsIdle]

/-- Settles O52: the buffer is the producer's, the units hold the queues and nothing else. -/
theorem launchStateMeetsThePremises : Obligations.LaunchStateMeetsThePremises := fun ws queues schedule =>
  ⟨⟨Buffer.words_ofWords ws, Buffer.word_ofWords ws⟩, rfl, unitsIdle_launch _ queues schedule,
    launch_outstanding _ queues schedule, List.length_map _⟩

/-- A run that starts with nothing delivered delivers outcomes alone, and a request has one outcome on the buffer, so
its repetitions get one response (R109, R132). -/
theorem repeatsAgree_of_runs {k : Nat} {s t : State} (hrun : Runs k s t) (hstart : s.answered = []) :
    repeatsAgree t = true := by
  obtain ⟨served, -, -, hans, -⟩ := runs_serves_list hrun
  rw [hstart, List.nil_append] at hans
  refine (repeatsAgree_iff t).2 fun p hp q hq hpq => ?_
  rw [hans] at hp hq
  have hp' := outcomeOf_of_mem_answersTo _ hp
  rw [hpq, outcomeOf_of_mem_answersTo _ hq] at hp'
  exact (Except.ok.inj hp').symm

/-- Settles O54: both runs end, from the same requests on the same buffer, so every schedule's end is the same. -/
theorem determinismTestPassesForEverySpread : Obligations.DeterminismTestPassesForEverySpread := by
  intro buf requests queues schedule hspread
  obtain ⟨s, hs, hsEnd⟩ := everyRunEnds (State.allOnOneUnit buf requests)
  obtain ⟨t, ht, htEnd⟩ := everyRunEnds (State.launch buf queues schedule)
  have hout : (State.allOnOneUnit buf requests).outstanding.Perm (State.launch buf queues schedule).outstanding := by
    rw [allOnOneUnit_outstanding, launch_outstanding]
    exact hspread.symm
  obtain ⟨hans, hflt⟩ := everyScheduleGivesTheSameResponses (State.allOnOneUnit buf requests)
    (State.launch buf queues schedule) s t _ _ rfl hout rfl rfl rfl rfl hs ht hsEnd htEnd
  rw [determinismTest_of_runs buf requests queues schedule s t hs ht,
    (sameResponses_iff s t).2 ⟨hsEnd, htEnd, hans, hflt⟩, repeatsAgree_of_runs hs rfl, repeatsAgree_of_runs ht rfl]
  rfl

end Sys2Proof.Machine
end
